-- ==== Sys2Proof/Word.lean ====
section
/-! DEFINITION. The word, byte and block types of the engine (00_scope.md R7, R9, R11).

A `BitVec` stands for what the spec treats as bits: bit 31 of a word is its most significant bit (R9), `+` is
addition mod 2^32 with the carry discarded, `^^^`, `&&&` and `~~~` are the bitwise operators (R11), and on the
64-bit counter `+` is addition mod 2^64 (R11).  Nothing here is signed (R9). -/

namespace Sys2Proof

/-- A hash word: 32 bits (R7 `WORD`). -/
abbrev Word := BitVec 32

/-- A byte: 8 bits (R9). -/
abbrev Byte := BitVec 8

/-- The bit-length counter and the length field of the padding: 64 bits (R7 `LENW`). -/
abbrev Length := BitVec 64

/-- A HashState: eight words (R7 `NSTATE`, R21). -/
abbrev HashState := Vector Word 8

/-- A block, and the contents of a 64-byte buffer: 64 bytes (R7 `BLOCK`, R24, R34). -/
abbrev Block := Vector Byte 64

end Sys2Proof
end

