-- ==== Sys2Proof/Config.lean ====
section
/-! DEFINITION. The fixed parameters of the engine (00_scope.md R7).

None of them is configurable and the model takes no parameter as an argument (R8).  The spec leaves no value
open that a step of the engine could read, so there is no free value here: the state before the first reset
(70_reset_and_hazards.md R230) is read by no step, since every run begins at the reset state (log 11). -/

namespace Sys2Proof.Config

/-- `WORD`: bits in a hash word. -/
abbrev wordBits : Nat := 32
/-- `NSTATE`: words in a HashState. -/
abbrev stateWords : Nat := 8
/-- `BLOCK`: bytes in a block and in a context buffer. -/
abbrev blockBytes : Nat := 64
/-- `NSCHED`: words in the message schedule. -/
abbrev scheduleWords : Nat := 64
/-- `NROUND`: rounds per compression. -/
abbrev rounds : Nat := 64
/-- `LENW`: bits in the bit-length counter. -/
abbrev lengthBits : Nat := 64
/-- `NCTX`: HashContext register sets in one engine. -/
abbrev contexts : Nat := 2
/-- `PORTW`: bits in a word of the IN and OUT ports. -/
abbrev portBits : Nat := 32
/-- `MAXPAY`: the largest payload byte count of one UPDATE or KEY command. -/
abbrev maxPayload : Nat := 65535
/-- `TXDEPTH`: words in the output queue. -/
abbrev txDepth : Nat := 8

end Sys2Proof.Config
end

