-- ==== Sys2Proof/Syntax.lean ====
section
/-! DEFINITION. The command set: one constructor of `Instr` per row of the opcode map (30_encoding.md R95,
spec/opcode_table.json), and the two algorithm variants.

A command is its 32-bit header word (R90).  The payload words that follow an UPDATE or KEY header are data on
the IN stream, taken one by one by later events (R91, R94), so they are not part of `Instr` (log 6). -/

namespace Sys2Proof

/-- The two variants in scope (00_scope.md R2): SHA-224 and SHA-256. -/
inductive Variant where
  | sha224
  | sha256
deriving DecidableEq, Repr

/-- The six opcodes (R95), without operands. -/
inductive Opcode where
  | hinit
  | update
  | final
  | kinit
  | key
  | kdone
deriving DecidableEq, Repr

/-- A command header (R95).  `var` is the raw `VAR` field and `len` the raw `LEN` field of the header (R90, R97):
a variant code outside 1 and 2 is still a row of the table, and raises `BAD_VARIANT` when it is executed (R96). -/
inductive Instr where
  /-- HINIT: hash `init(variant)` (41_hash_context.md R160). -/
  | hinit (var : BitVec 4)
  /-- UPDATE: hash or HMAC `update(bytes)` (R161, 42_hmac.md R186). -/
  | update (len : BitVec 16)
  /-- FINAL: hash or HMAC `finalize()` (R162, R185). -/
  | final
  /-- KINIT: first part of HMAC `init(variant, key)` (R180). -/
  | kinit (var : BitVec 4)
  /-- KEY: key bytes of HMAC `init(variant, key)` (R181). -/
  | key (len : BitVec 16)
  /-- KDONE: last part of HMAC `init(variant, key)` (R183). -/
  | kdone
deriving DecidableEq, Repr

end Sys2Proof
end

