-- ==== Sys2Proof/WellFormed.lean ====
section
/-! DEFINITION. Which commands are well formed (30_encoding.md R96): the variant code of HINIT and KINIT is 1
(SHA224) or 2 (SHA256).  A 16-bit `LEN` has no illegal value (R97). -/

namespace Sys2Proof

/-- The variant codes that name a variant (R96). -/
def validVariantCode (var : BitVec 4) : Bool := var == 1 || var == 2

/-- A command that no check of the header step depending on the word alone refuses (R93 steps 1 to 5). -/
def Instr.wellFormed : Instr → Bool
  | .hinit var => validVariantCode var
  | .update _ => true
  | .final => true
  | .kinit var => validVariantCode var
  | .key _ => true
  | .kdone => true

end Sys2Proof
end

