-- ==== Sys2Proof/Decode.lean ====
section
/-! DEFINITION. The header decoder and encoder (30_encoding.md R90 to R98).

`decode` is total on the 2^32 header words and makes the checks of the header step that do not depend on the
state or on the value of a variant code (R93 steps 1 to 4), in the order R93 gives them; the two that remain
(steps 5 and 6) are made by the meanings of the commands.  `encode` is written from the same field positions. -/

namespace Sys2Proof

/-! ### Header fields (R90) -/

/-- `OPC`, bits 31:28. -/
def headerOpc (w : Word) : BitVec 4 := w.extractLsb' 28 4

/-- `VAR`, bits 27:24. -/
def headerVar (w : Word) : BitVec 4 := w.extractLsb' 24 4

/-- `RSV`, bits 23:16. -/
def headerRsv (w : Word) : BitVec 8 := w.extractLsb' 16 8

/-- `LEN`, bits 15:0. -/
def headerLen (w : Word) : BitVec 16 := w.extractLsb' 0 16

/-- The header word with the four fields given (R90). -/
def headerWord (opc var : BitVec 4) (rsv : BitVec 8) (len : BitVec 16) : Word :=
  opc ++ var ++ rsv ++ len

/-! ### Opcodes (R95) -/

/-- The opcode a code stands for; 0 and 7..15 stand for none (R95). -/
def Opcode.ofCode (opc : BitVec 4) : Option Opcode :=
  match opc.toNat with
  | 1 => some .hinit
  | 2 => some .update
  | 3 => some .final
  | 4 => some .kinit
  | 5 => some .key
  | 6 => some .kdone
  | _ => none

/-- The code of an opcode (R95). -/
def Opcode.code : Opcode → BitVec 4
  | .hinit => 1
  | .update => 2
  | .final => 3
  | .kinit => 4
  | .key => 5
  | .kdone => 6

/-- The commands that use the `VAR` field; in every other command it must be 0 (R90). -/
def Opcode.usesVar : Opcode → Bool
  | .hinit => true
  | .update => false
  | .final => false
  | .kinit => true
  | .key => false
  | .kdone => false

/-- The commands that use the `LEN` field; in every other command it must be 0 (R90). -/
def Opcode.usesLen : Opcode → Bool
  | .hinit => false
  | .update => true
  | .final => false
  | .kinit => false
  | .key => true
  | .kdone => false

/-- The command of an opcode with the fields of its header. -/
def Opcode.instr (op : Opcode) (var : BitVec 4) (len : BitVec 16) : Instr :=
  match op with
  | .hinit => .hinit var
  | .update => .update len
  | .final => .final
  | .kinit => .kinit var
  | .key => .key len
  | .kdone => .kdone

/-- The opcode of a command. -/
def Instr.opcode : Instr → Opcode
  | .hinit _ => .hinit
  | .update _ => .update
  | .final => .final
  | .kinit _ => .kinit
  | .key _ => .key
  | .kdone => .kdone

/-- The `VAR` field of a command's header: 0 where the command does not use it (R90). -/
def Instr.varField : Instr → BitVec 4
  | .hinit var => var
  | .update _ => 0
  | .final => 0
  | .kinit var => var
  | .key _ => 0
  | .kdone => 0

/-- The `LEN` field of a command's header: 0 where the command does not use it (R90). -/
def Instr.lenField : Instr → BitVec 16
  | .hinit _ => 0
  | .update len => len
  | .final => 0
  | .kinit _ => 0
  | .key len => len
  | .kdone => 0

/-! ### Decoding (R93 steps 1 to 4, R98) -/

/-- Why a header word is no command: the two rejections by name of R98 that the word alone decides. -/
inductive Reject where
  /-- `OPC` is 0 or 7..15 (60_exceptions.md R202). -/
  | illegalOpcode
  /-- A reserved field, or a field the command does not use, is not 0 (R203). -/
  | reservedField
deriving DecidableEq, Repr

/-- The command a header word stands for, or why it stands for none (R93 steps 1 to 4 in that order). -/
def decode (w : Word) : Except Reject Instr :=
  match Opcode.ofCode (headerOpc w) with
  | none => .error .illegalOpcode
  | some op =>
    if headerRsv w ≠ 0 then .error .reservedField
    else if op.usesVar = false ∧ headerVar w ≠ 0 then .error .reservedField
    else if op.usesLen = false ∧ headerLen w ≠ 0 then .error .reservedField
    else .ok (op.instr (headerVar w) (headerLen w))

/-! ### Encoding (R90, R95) -/

/-- The header word of a command. -/
def encode (i : Instr) : Word := headerWord i.opcode.code i.varField 0 i.lenField

/-- The number of payload bytes that follow a command's header: `LEN` for UPDATE and KEY, none otherwise (R91). -/
def Instr.payloadBytes (i : Instr) : Nat := i.lenField.toNat

/-- The number of payload words that follow a command's header: `ceil(LEN / 4)` (R91). -/
def Instr.payloadWords (i : Instr) : Nat := (i.payloadBytes + 3) / 4

/-! ### The opcode map as printed (R95) -/

/-- A row of the opcode map: a word `w` is this command iff `w & mask = bits` (R95). -/
structure OpRow where
  opcode : Opcode
  bits : Word
  mask : Word
deriving DecidableEq, Repr

/-- The opcode map (R95), row by row. -/
def opcodeMap : List OpRow :=
  [⟨.hinit, 0x10000000, 0xF0FFFFFF⟩,
   ⟨.update, 0x20000000, 0xFFFF0000⟩,
   ⟨.final, 0x30000000, 0xFFFFFFFF⟩,
   ⟨.kinit, 0x40000000, 0xF0FFFFFF⟩,
   ⟨.key, 0x50000000, 0xFFFF0000⟩,
   ⟨.kdone, 0x60000000, 0xFFFFFFFF⟩]

/-- The row's test of a word (R95). -/
def OpRow.accepts (r : OpRow) (w : Word) : Bool := w &&& r.mask == r.bits

/-! ### The opcode table's numbering of the bits -/

/-- The header word whose `nbits` low bits are those of `w` and whose other bits are 0.  A header is one 32-bit
word whose bit 0 is the table's bit 0 (R90). -/
def tableWord (nbits w : Nat) : Word := BitVec.ofNat 32 (w % 2 ^ nbits)

/-- The command the decoder reads from a word numbered as spec/opcode_table.json numbers it. -/
def decodeTableWord (nbits w : Nat) : Option Instr :=
  match decode (tableWord nbits w) with
  | .ok i => some i
  | .error _ => none

end Sys2Proof
end

