-- ==== Sys2Proof/Machine/State.lean ====
section
/-! DEFINITION. The state of the machine (10_state.md), the faults and refusals of a step, and the state after
reset (70_reset_and_hazards.md R231).

`Engine` is the spec's state tuple (R20), one field per element, each of a type that holds the values the spec
lets the element hold (log 7).  `State` adds the two word streams of the ports
(20_memory.md R60): the events of the environment still to come, in the order of the run (00_scope.md R13), and
the words delivered on OUT so far.  The tables `K` and `IV` are not state (R20) and stand in
Sys2Proof/Machine/Tables.lean. -/

namespace Sys2Proof.Machine

/-- `MODE` (10_state.md R29): the lifecycle of the single live context. -/
inductive Mode where
  /-- Code 0: no live context. -/
  | idle
  /-- Code 1: a plain hash context is live in `CTX[0]`. -/
  | hash
  /-- Code 2: an HMAC context is under construction; key bytes are being received. -/
  | keying
  /-- Code 3: an HMAC context is live: inner `CTX[0]`, outer `CTX[1]`. -/
  | hmac
deriving DecidableEq, Repr

/-- The causes of a `ContractViolation` (60_exceptions.md R201), the non-zero values of `CAUSE` (R32). -/
inductive Cause where
  /-- Code 1. -/
  | illegalOpcode
  /-- Code 2. -/
  | reservedField
  /-- Code 3. -/
  | badVariant
  /-- Code 4. -/
  | badMode
deriving DecidableEq, Repr

/-- The index of one of the two contexts (R21). -/
inductive CtxIndex where
  /-- `CTX[0]`: plain hash, hash of an over-long key, HMAC inner context. -/
  | zero
  /-- `CTX[1]`: HMAC outer context. -/
  | one
deriving DecidableEq, Repr

/-- Sixty-four zero bytes: the content of an empty buffer (R24, R25) and of a cleared `KEYBLK` (R34). -/
def zeroBlock : Block := Vector.replicate 64 0

/-- Eight zero words: a cleared HashState (R21) and an empty `TXQ` (R37). -/
def zeroWords : HashState := Vector.replicate 8 0

/-- A HashContext: one HashState with its buffer, fill count and bit-length counter. -/
structure HashCtx where
  /-- `H[c][0..7]` (R21). -/
  h : HashState
  /-- `BUF[c][0..63]` (R24). -/
  buf : Block
  /-- `FILL[c]`, 6 bits, 0..63 (R26). -/
  fill : Fin 64
  /-- `LEN[c]`, 64 bits (R27). -/
  len : Length
deriving DecidableEq, Repr

/-- A context with every element zero: after reset and after a clear (41_hash_context.md R151). -/
def HashCtx.zero : HashCtx := { h := zeroWords, buf := zeroBlock, fill := 0, len := 0 }

/-- The complete state of one engine (R20). -/
structure Engine where
  /-- `H[0]`, `BUF[0]`, `FILL[0]`, `LEN[0]`. -/
  ctx0 : HashCtx
  /-- `H[1]`, `BUF[1]`, `FILL[1]`, `LEN[1]`. -/
  ctx1 : HashCtx
  /-- `VARIANT` (R28): `none` is the register's value 0, no live context; 3 is never held. -/
  variant : Option Variant
  /-- `MODE` (R29). -/
  mode : Mode
  /-- `FAULT` (R31), the sticky error flag. -/
  fault : Bool
  /-- `CAUSE` (R32): `none` is the register's value 0, no fault; 5..15 are never held. -/
  cause : Option Cause
  /-- `KEYBLK[0..63]` (R34). -/
  keyBlk : Block
  /-- `KEYCNT` (R35), 0..65, saturating. -/
  keyCnt : Fin 66
  /-- `RXCNT` (R36): payload bytes still expected on IN; 0 means the next IN word is a header. -/
  rxCnt : BitVec 16
  /-- `TXQ[0..7]` (R37). -/
  txq : Vector Word 8
  /-- `TXRD` (R37), 3 bits, 0..7. -/
  txRd : Fin 8
  /-- `TXCNT` (R37), 0..8. -/
  txCnt : Fin 9
deriving DecidableEq, Repr

/-- Every state element at its reset value (R231). -/
def Engine.reset : Engine :=
  { ctx0 := HashCtx.zero, ctx1 := HashCtx.zero, variant := none, mode := .idle, fault := false, cause := none,
    keyBlk := zeroBlock, keyCnt := 0, rxCnt := 0, txq := zeroWords, txRd := 0, txCnt := 0 }

/-- The events of a run (00_scope.md R13). -/
inductive Event where
  /-- `Reset`: a sampled 1 on `rst` (30_encoding.md R110). -/
  | reset
  /-- `InWord(w)`: the host presents `w` on IN. -/
  | inWord (w : Word)
  /-- `OutWord`: the host takes a word from OUT. -/
  | outWord
deriving DecidableEq, Repr

/-- The state of the machine: one engine (R20) between the two streams of its ports (20_memory.md R60). -/
structure State extends Engine where
  /-- The environment's events still to come, the next one first: the words of the IN stream, and between them
  the moments at which the host takes a word from OUT or resets the engine (R13).  DESIGN CHOICE (log 1). -/
  pending : List Event
  /-- The OUT stream (R60): the words delivered so far, the first one first.  DESIGN CHOICE (log 2). -/
  outStream : List Word
deriving DecidableEq, Repr

/-- The state right after `Reset` (R231), with nothing presented by the host and nothing delivered. -/
def State.reset : State := { Engine.reset with pending := [], outStream := [] }

/-- Why a step stops. -/
inductive Fault where
  /-- Raised by `hold`, and by nothing else: the engine has taken a `ContractViolation` (`FAULT = 1`) and the
  next event is not one it can perform, so it is halted until `Reset` (60_exceptions.md R206, R207).  `cause` is
  the `CAUSE` register.  Safe: the spec's engine makes no step there either. -/
  | contractViolation (cause : Option Cause)
  /-- Raised by FINAL and KDONE in a state whose `MODE` is not IDLE while `VARIANT` is 0, which the spec rules
  out (10_state.md R50 item 3) and for which it states no digest length and no IV.  Safe: no run reaches such a
  state (log 3). -/
  | variantAbsent
deriving DecidableEq, Repr

/-- Why an instruction has no meaning in the model. -/
inductive Refusal where
  /-- Raised by an arm of `exec` for an instruction that has no meaning yet.  Safe.  No arm raises it now. -/
  | notModelled (mnemonic : String)
deriving DecidableEq, Repr

/-- What one step answers. -/
abbrev Result := Host.Outcome State Fault Refusal

end Sys2Proof.Machine
end

