-- ==== Sys2Proof/Machine/Operands.lean ====
section
/-! DEFINITION. Operand forms: the conversions between bytes and words, all big-endian (00_scope.md R10,
20_memory.md R63 to R69), the buffer access primitives (R12, R66, R67), the bytes of a payload word
(30_encoding.md R94) and the variant codes (R96). -/

namespace Sys2Proof.Machine

/-! ### Byte order (R10) -/

/-- `be32(b0, b1, b2, b3)`: the first byte is the most significant (R10). -/
def be32 (b0 b1 b2 b3 : Byte) : Word := b0 ++ b1 ++ b2 ++ b3

/-- `bytes32(w)`: the four bytes of a word, most significant first (R10). -/
def bytes32 (w : Word) : List Byte :=
  [w.extractLsb' 24 8, w.extractLsb' 16 8, w.extractLsb' 8 8, w.extractLsb' 0 8]

/-- `bytes64(L)`: the eight bytes of a length, most significant first (R10, R64). -/
def bytes64 (l : Length) : List Byte :=
  [l.extractLsb' 56 8, l.extractLsb' 48 8, l.extractLsb' 40 8, l.extractLsb' 32 8,
   l.extractLsb' 24 8, l.extractLsb' 16 8, l.extractLsb' 8 8, l.extractLsb' 0 8]

/-! ### Buffer access -/

/-- The big-endian word at byte offset `4 * t` of a block: `MemRead(c, 4t, 4)` (R63, R66). -/
def blockWord (b : Block) (t : Fin 16) : Word :=
  be32 (b[4 * t.val]'(by omega)) (b[4 * t.val + 1]'(by omega)) (b[4 * t.val + 2]'(by omega))
    (b[4 * t.val + 3]'(by omega))

/-- `MemWrite(c, i, 1, b)`: one byte stored at offset `i` (R67). -/
def putByte (buf : Block) (i : Fin 64) (b : Byte) : Block := buf.set i.val b i.isLt

/-- The first 64 bytes of a sequence, with trailing zero bytes up to 64 (42_hmac.md R183: the key "with trailing
zero bytes up to 64 bytes"). -/
def padBlock (bs : List Byte) : Block := Vector.ofFn fun i : Fin 64 => bs.getD i.val 0

/-! ### Payload words (30_encoding.md R94, 20_memory.md R68) -/

/-- The bytes a payload word carries while `rx` payload bytes are still to come: the first `min(4, rx)` of its
four bytes, from bit 31 down; the bits below them are ignored (R94, R70). -/
def payloadBytes (w : Word) (rx : BitVec 16) : List Byte := (bytes32 w).take (min 4 rx.toNat)

/-- `RXCNT - min(4, RXCNT)` (R94, R36). -/
def payloadRest (rx : BitVec 16) : BitVec 16 := BitVec.ofNat 16 (rx.toNat - min 4 rx.toNat)

/-! ### Variants -/

/-- The variant a `VAR` code names: 1 is SHA224, 2 is SHA256, the rest name none (R96). -/
def variantOfCode (var : BitVec 4) : Option Variant :=
  match var.toNat with
  | 1 => some .sha224
  | 2 => some .sha256
  | _ => none

/-- `n(v)`: the words of a digest, 7 for SHA224 and 8 for SHA256 (R7, R105, 41_hash_context.md R157). -/
def digestWords : Variant → Nat
  | .sha224 => 7
  | .sha256 => 8

end Sys2Proof.Machine
end

