-- ==== Sys2Proof/Machine/Compression.lean ====
section
/-! DEFINITION. The Compression Core (40_compression_core.md): logical functions, message-schedule generator,
round mixer, state adder, and their composition `compress`.

The core is pure (R120): nothing here reads or writes the state.  Its working registers are not architectural
(10_state.md R48, log 16). -/

namespace Sys2Proof.Machine

/-! ### Word operators (00_scope.md R11) -/

/-- `ROTR(x, n)`, used with `0 < n < 32` (R11). -/
def rotr (x : Word) (n : Nat) : Word := (x >>> n) ||| (x <<< (32 - n))

/-- `SHR(x, n)`: zeros are shifted in at the top (R11). -/
def shr (x : Word) (n : Nat) : Word := x >>> n

/-! ### Logical functions (R121 to R123) -/

/-- `Ch`, choice (R121). -/
def ch (x y z : Word) : Word := (x &&& y) ^^^ (~~~x &&& z)

/-- `Maj`, majority (R121). -/
def maj (x y z : Word) : Word := (x &&& y) ^^^ (x &&& z) ^^^ (y &&& z)

/-- `Σ0` (R122). -/
def bigSigma0 (x : Word) : Word := rotr x 2 ^^^ rotr x 13 ^^^ rotr x 22

/-- `Σ1` (R122). -/
def bigSigma1 (x : Word) : Word := rotr x 6 ^^^ rotr x 11 ^^^ rotr x 25

/-- `σ0` (R123). -/
def smallSigma0 (x : Word) : Word := rotr x 7 ^^^ rotr x 18 ^^^ shr x 3

/-- `σ1` (R123). -/
def smallSigma1 (x : Word) : Word := rotr x 17 ^^^ rotr x 19 ^^^ shr x 10

/-! ### Message-schedule generator (R124, R125) -/

/-- The schedule load, `W[0..15]` (R124). -/
def scheduleLoad (b : Block) : List Word := (List.finRange 16).map (blockWord b)

/-- The next schedule word from the words before it, the latest first: `σ1(W[t-2]) + W[t-7] + σ0(W[t-15]) +
W[t-16]` (R125). -/
def scheduleNext (latest : List Word) : Word :=
  smallSigma1 (latest.getD 1 0) + latest.getD 6 0 + smallSigma0 (latest.getD 14 0) + latest.getD 15 0

/-- `n` further schedule words put before the words already there, the latest first (R125). -/
def scheduleExpand : Nat → List Word → List Word
  | 0, latest => latest
  | n + 1, latest => scheduleExpand n (scheduleNext latest :: latest)

/-- The message schedule `W[0..63]` of a block (R124, R125). -/
def schedule (b : Block) : List Word := (scheduleExpand 48 (scheduleLoad b).reverse).reverse

/-! ### Round mixer (R127, R128) -/

/-- The eight working variables (R127). -/
structure Working where
  a : Word
  b : Word
  c : Word
  d : Word
  e : Word
  f : Word
  g : Word
  h : Word
deriving DecidableEq, Repr

/-- The working-variable load (R127). -/
def workingLoad (s : HashState) : Working := ⟨s[0], s[1], s[2], s[3], s[4], s[5], s[6], s[7]⟩

/-- One round with its constant `k = K[t]` and schedule word `w = W[t]` (R128).  Every right-hand side uses the
values from before the round. -/
def mixRound (v : Working) (k w : Word) : Working :=
  let t1 := v.h + bigSigma1 v.e + ch v.e v.f v.g + k + w
  let t2 := bigSigma0 v.a + maj v.a v.b v.c
  { a := t1 + t2, b := v.a, c := v.b, d := v.c, e := v.d + t1, f := v.e, g := v.f, h := v.g }

/-- The rounds over the constants and a schedule, in order of `t` (R128). -/
def mixRounds (v : Working) (ws : List Word) : Working :=
  (kTable.zip ws).foldl (fun x p => mixRound x p.1 p.2) v

/-! ### State adder and composition (R129, R130) -/

/-- The state addition (R129). -/
def stateAdd (s : HashState) (v : Working) : HashState :=
  #v[s[0] + v.a, s[1] + v.b, s[2] + v.c, s[3] + v.d, s[4] + v.e, s[5] + v.f, s[6] + v.g, s[7] + v.h]

/-- `compress(S, B)` (R130). -/
def compress (s : HashState) (b : Block) : HashState :=
  stateAdd s (mixRounds (workingLoad s) (schedule b))

end Sys2Proof.Machine
end

