-- ==== Sys2Proof/Machine/Context.lean ====
section
/-! DEFINITION. The Streaming Hash Context primitives (41_hash_context.md R150 to R157): initialisation, clear,
the buffer append with the block dispatcher, the padding rule, and the digest. -/

namespace Sys2Proof.Machine

/-- `ctx_init(c, v)` (R150). -/
def ctxInit (v : Variant) : HashCtx := { h := iv v, buf := zeroBlock, fill := 0, len := 0 }

/-- `ctx_clear(c)` (R151). -/
def ctxClear : HashCtx := HashCtx.zero

/-- A block dispatch on the full buffer `b` (R152, 10_state.md R25): all eight words of the HashState are replaced
together, the buffer is emptied, and the counter goes to `len`. -/
def dispatch (x : HashCtx) (b : Block) (len : Length) : HashCtx :=
  { h := compress x.h b, buf := zeroBlock, fill := 0, len := len }

/-- The buffer append of one byte with the counter value `len` that a dispatch leaves (R152): the byte goes to
offset `FILL`, and the 64th byte dispatches the block. -/
def pushByte (x : HashCtx) (b : Byte) (len : Length) : HashCtx :=
  if room : x.fill.val + 1 < 64 then
    { x with buf := putByte x.buf x.fill b, fill := ⟨x.fill.val + 1, room⟩ }
  else dispatch x (putByte x.buf x.fill b) len

/-- `absorb(c, b)`: a dispatch adds 512 to the counter, mod 2^64 (R152, R153). -/
def absorb (x : HashCtx) (b : Byte) : HashCtx := pushByte x b (x.len + 512)

/-- `absorb_pad(c, b)`: like `absorb` but the counter stays (R152, R155). -/
def absorbPad (x : HashCtx) (b : Byte) : HashCtx := pushByte x b x.len

/-- Absorbing a byte sequence: its bytes in index order (R152). -/
def absorbAll (x : HashCtx) (bs : List Byte) : HashCtx := bs.foldl absorb x

/-- `L = (LEN + 8 * FILL) mod 2^64`, the total bit length (R154). -/
def totalBits (x : HashCtx) : Length := x.len + BitVec.ofNat 64 (8 * x.fill.val)

/-- `k = (55 - f) mod 64`, the number of zero bytes of the padding at fill count `f` (R155). -/
def padZeros (f : Fin 64) : Nat := (55 + 64 - f.val) % 64

/-- `P = 0x80 ‖ 0x00^k ‖ bytes64(L)`, the padding at fill count `f` for the bit length `l` (R155). -/
def padding (f : Fin 64) (l : Length) : List Byte := 0x80 :: (List.replicate (padZeros f) 0 ++ bytes64 l)

/-- `finalize(c)`: the padding bytes, whose length field is captured before the first of them, are absorbed without
counting (R155). -/
def finalize (x : HashCtx) : HashCtx := (padding x.fill (totalBits x)).foldl absorbPad x

/-- The words of `digest(c, v)`: `H[c][0..n(v)-1]` (R157). -/
def digestOf (h : HashState) (v : Variant) : List Word := h.toList.take (digestWords v)

/-- The bytes of `digest(c, v)`: its words in big-endian byte order (R157, 20_memory.md R65). -/
def digestBytes (h : HashState) (v : Variant) : List Byte := (digestOf h v).flatMap bytes32

end Sys2Proof.Machine
end

