-- ==== Sys2Proof/Machine/Flags.lean ====
section
/-! DEFINITION. Flags and status: the codes of `MODE`, `VARIANT` and `CAUSE` (10_state.md R28, R29, R32), the port
and status outputs (R40, 30_encoding.md R110), when the events are enabled (R92, R108), and the checks of the
header step with their priority (R93, 60_exceptions.md R201 to R205).

`FAULT` and `CAUSE` are the only flags: no arithmetic operation sets one (R33). -/

namespace Sys2Proof.Machine

/-! ### Codes -/

/-- The two bits of `MODE` (R29). -/
def modeCode : Mode → BitVec 2
  | .idle => 0
  | .hash => 1
  | .keying => 2
  | .hmac => 3

/-- The two bits of `VARIANT`: 0 is no variant (R28). -/
def variantCode : Option Variant → BitVec 2
  | none => 0
  | some .sha224 => 1
  | some .sha256 => 2

/-- The four bits of `CAUSE`: 0 is no fault (R32, R201). -/
def causeCode : Option Cause → BitVec 4
  | none => 0
  | some .illegalOpcode => 1
  | some .reservedField => 2
  | some .badVariant => 3
  | some .badMode => 4

/-! ### Enabled events (00_scope.md R13) -/

/-- `InWord` is enabled iff `FAULT = 0` and `TXCNT = 0` (R92). -/
def inWordEnabled (e : Engine) : Bool := !e.fault && e.txCnt == 0

/-- `OutWord` is enabled iff `TXCNT > 0`, regardless of `FAULT` (R108). -/
def outWordEnabled (e : Engine) : Bool := e.txCnt != 0

/-! ### Outputs of the engine (R110, R40)

`in_ready` may stay low for a finite time even where `InWord` is enabled (R110, R246); the model has no time, so
it gives the states in which `in_ready` may be 1, which is `inWordEnabled` (log 10). -/

/-- `out_valid` (R110). -/
def outValid (e : Engine) : Bool := outWordEnabled e

/-- `out_data`: `TXQ[TXRD]` when `out_valid = 1`, zero otherwise (R110). -/
def outData (e : Engine) : Word := if outValid e then e.txq[e.txRd] else 0

/-- `st_fault` (R40). -/
def stFault (e : Engine) : BitVec 1 := BitVec.ofBool e.fault

/-- `st_cause[3:0]` (R40). -/
def stCause (e : Engine) : BitVec 4 := causeCode e.cause

/-- `st_mode[1:0]` (R40). -/
def stMode (e : Engine) : BitVec 2 := modeCode e.mode

/-- `st_variant[1:0]` (R40). -/
def stVariant (e : Engine) : BitVec 2 := variantCode e.variant

/-! ### The checks of the header step -/

/-- The command legality matrix (60_exceptions.md R204, 10_state.md R29). -/
def modeAllows : Mode → Opcode → Bool
  | .idle, .hinit => true
  | .idle, .update => false
  | .idle, .final => false
  | .idle, .kinit => true
  | .idle, .key => false
  | .idle, .kdone => false
  | .hash, .hinit => true
  | .hash, .update => true
  | .hash, .final => true
  | .hash, .kinit => true
  | .hash, .key => false
  | .hash, .kdone => false
  | .keying, .hinit => true
  | .keying, .update => false
  | .keying, .final => false
  | .keying, .kinit => true
  | .keying, .key => true
  | .keying, .kdone => true
  | .hmac, .hinit => true
  | .hmac, .update => true
  | .hmac, .final => true
  | .hmac, .kinit => true
  | .hmac, .key => false
  | .hmac, .kdone => false

/-- The cause that a rejection by the decoder raises (R202, R203). -/
def rejectCause : Reject → Cause
  | .illegalOpcode => .illegalOpcode
  | .reservedField => .reservedField

end Sys2Proof.Machine
end

