-- ==== Sys2Proof/Machine/Ops.lean ====
section
/-! DEFINITION. The named operations over the registers, the buffers and the output queue that the meanings share,
with taking the one exception and the one way out of it.

The engine has no addressable memory and no bus (20_memory.md R60); the buffers, the key block and the output
queue stand in its place, and these are all the operations that reach them (log 18). -/

namespace Sys2Proof.Machine

/-! ### The contexts -/

/-- Context `c` (10_state.md R21). -/
def ctxOf (e : Engine) : CtxIndex → HashCtx
  | .zero => e.ctx0
  | .one => e.ctx1

/-- A step that changes the engine and leaves the two streams as they are. -/
def done (s : State) (e : Engine) : Result := .next { s with toEngine := e }

/-! ### The exception (60_exceptions.md R206, R208) -/

/-- The registers after trap entry: `FAULT <- 1`, `CAUSE <- cause`, and nothing else (R206). -/
def trapEntry (e : Engine) (cause : Cause) : Engine := { e with fault := true, cause := some cause }

/-- `raise ContractViolation(cause)` (R206, 00_scope.md R12): trap entry ends the step.  Control goes nowhere:
there is no handler, and the machine stands in the state with `FAULT = 1`. -/
def raiseViolation (cause : Cause) (s : State) : Result := done s (trapEntry s.toEngine cause)

/-- The `Reset` event (70_reset_and_hazards.md R231): every state element takes its reset value, whatever it held.
It is the only way out of the fault state (R208); there is no trap return. -/
def resetEngine (_ : Engine) : Engine :=
  { ctx0 := ctxClear, ctx1 := ctxClear, variant := none, mode := .idle, fault := false, cause := none,
    keyBlk := zeroBlock, keyCnt := 0, rxCnt := 0, txq := zeroWords, txRd := 0, txCnt := 0 }

/-- A step in which no event happens: the engine waits in its state (20_memory.md R61,
70_reset_and_hazards.md R242); with `FAULT = 1` it is halted (R206, R207).  DESIGN CHOICE (log 4). -/
def hold (s : State) : Result :=
  if s.fault then .fault (.contractViolation s.cause) else .next s

/-! ### Beginning and ending a context -/

/-- What HINIT and KINIT have in common (R160, R180): a fresh `CTX[0]`, everything of an earlier context
discarded. -/
def startContext (v : Variant) (m : Mode) (e : Engine) : Engine :=
  { e with ctx0 := ctxInit v, ctx1 := ctxClear, keyBlk := zeroBlock, keyCnt := 0, variant := some v, mode := m }

/-- The end of FINAL (R162, R185 step 5): the context is consumed. -/
def consumeContext (e : Engine) : Engine :=
  { e with ctx0 := ctxClear, ctx1 := ctxClear, keyBlk := zeroBlock, keyCnt := 0, variant := none, mode := .idle }

/-- Continue with the variant of the live context.  In every state a run reaches, `MODE ≠ IDLE` implies that
there is one (10_state.md R50 item 3). -/
def withVariant (s : State) (k : Variant → Result) : Result :=
  match s.variant with
  | some v => k v
  | none => .fault .variantAbsent

/-! ### The output queue (10_state.md R37) -/

/-- `TXQ[i] <- h[i]` for `i = 0 .. n(v)-1`, the other slot unchanged (R162, R185 step 4, 30_encoding.md R105). -/
def queueWords (v : Variant) (h : HashState) (q : Vector Word 8) : Vector Word 8 :=
  match v with
  | .sha224 => #v[h[0], h[1], h[2], h[3], h[4], h[5], h[6], q[7]]
  | .sha256 => h

/-- `TXCNT <- n(v)`. -/
def queueCount : Variant → Fin 9
  | .sha224 => 7
  | .sha256 => 8

/-- FINAL's loading of the output queue with the digest words of `h` (R162, R185 step 4). -/
def loadQueue (v : Variant) (h : HashState) (e : Engine) : Engine :=
  { e with txq := queueWords v h e.txq, txRd := 0, txCnt := queueCount v }

/-- The registers after `OutWord` (R108): the delivered slot is zeroed.  `TXRD + 1` is taken in its three bits
(log 8). -/
def popQueue (e : Engine) : Engine :=
  { e with
    txq := e.txq.set e.txRd.val 0 e.txRd.isLt
    txCnt := ⟨e.txCnt.val - 1, by omega⟩
    txRd := if e.txCnt.val - 1 = 0 then 0 else e.txRd + 1 }

/-- The `OutWord` event (R108): `TXQ[TXRD]` is delivered on OUT. -/
def deliverWord (s : State) : State :=
  { s with toEngine := popQueue s.toEngine, outStream := s.outStream ++ [s.txq[s.txRd]] }

/-! ### Payload (30_encoding.md R94, 42_hmac.md R182) -/

/-- `key_byte(b)` (R182): the byte is kept while fewer than 64 are, counted up to 65, and absorbed into the running
hash of the whole key. -/
def keyByte (e : Engine) (b : Byte) : Engine :=
  { e with
    keyBlk := if slot : e.keyCnt.val < 64 then putByte e.keyBlk ⟨e.keyCnt.val, slot⟩ b else e.keyBlk
    keyCnt := if more : e.keyCnt.val < 65 then ⟨e.keyCnt.val + 1, by omega⟩ else e.keyCnt
    ctx0 := absorb e.ctx0 b }

/-- One message byte: `absorb(0, b)` (R94). -/
def messageByte (e : Engine) (b : Byte) : Engine := { e with ctx0 := absorb e.ctx0 b }

/-- One payload byte: in MODE = KEYING it is a key byte, otherwise a message byte (R94, log 17). -/
def payloadByte (e : Engine) (b : Byte) : Engine :=
  if e.mode = .keying then keyByte e b else messageByte e b

/-- The payload step (R94). -/
def payloadStep (w : Word) (e : Engine) : Engine :=
  { (payloadBytes w e.rxCnt).foldl payloadByte e with rxCnt := payloadRest e.rxCnt }

end Sys2Proof.Machine
end

