-- ==== Sys2Proof/Machine/Hmac.lean ====
section
/-! DEFINITION. The HMAC commands (42_hmac.md): KINIT, KEY, KDONE, and the HMAC half of FINAL. -/

namespace Sys2Proof.Machine

/-- `0x36`, the inner pad byte (00_scope.md R7 `IPAD`). -/
def ipadByte : Byte := 0x36

/-- `0x5c`, the outer pad byte (R7 `OPAD`). -/
def opadByte : Byte := 0x5c

/-- A 64-byte key, every byte xor-ed with a pad byte: `ipad` and `opad` (R183). -/
def xorPad (k0 : Block) (p : Byte) : List Byte := k0.toList.map (· ^^^ p)

/-- `K0` (R183 step 1, R184): the key itself, zero-padded, if at most 64 bytes of key have come; otherwise the
digest of the whole key, zero-padded. -/
def normalizedKey (v : Variant) (e : Engine) : Block :=
  if e.keyCnt.val ≤ 64 then e.keyBlk else padBlock (digestBytes (finalize e.ctx0).h v)

/-- The registers after KDONE (R183 steps 1 to 4). -/
def seedContexts (v : Variant) (e : Engine) : Engine :=
  { e with
    ctx0 := absorbAll (ctxInit v) (xorPad (normalizedKey v e) ipadByte)
    ctx1 := absorbAll (ctxInit v) (xorPad (normalizedKey v e) opadByte)
    keyBlk := zeroBlock
    keyCnt := 0
    mode := .hmac }

/-- The outer HashState whose words are the tag (R185 steps 1 to 3). -/
def tagState (v : Variant) (e : Engine) : HashState :=
  (finalize (absorbAll e.ctx1 (digestBytes (finalize e.ctx0).h v))).h

/-- The registers after FINAL in MODE = HMAC (R185 steps 1 to 5). -/
def finalHmac (v : Variant) (e : Engine) : Engine := consumeContext (loadQueue v (tagState v e) e)

/-- KINIT (R180): begin key entry.  Legal in every mode (R204). -/
def execKinit (var : BitVec 4) (s : State) : Result :=
  match variantOfCode var with
  | none => raiseViolation .badVariant s
  | some v => done s (startContext v .keying s.toEngine)

/-- KEY (R181): announce `len` key bytes. -/
def execKey (len : BitVec 16) (s : State) : Result :=
  if modeAllows s.mode .key then done s { s.toEngine with rxCnt := len }
  else raiseViolation .badMode s

/-- KDONE (R183): normalize the key and seed both contexts. -/
def execKdone (s : State) : Result :=
  if modeAllows s.mode .kdone then withVariant s fun v => done s (seedContexts v s.toEngine)
  else raiseViolation .badMode s

end Sys2Proof.Machine
end

