-- ==== Sys2Proof/Machine/Hash.lean ====
section
/-! DEFINITION. The hash commands (41_hash_context.md): HINIT, UPDATE and FINAL.  UPDATE and FINAL also serve a live
HMAC context (42_hmac.md R185, R186). -/

namespace Sys2Proof.Machine

/-- The registers after FINAL in MODE = HASH (R162). -/
def finalHash (v : Variant) (e : Engine) : Engine := consumeContext (loadQueue v (finalize e.ctx0).h e)

/-- The registers after FINAL, by the mode it is legal in (R95: R162 in HASH, R185 in HMAC). -/
def finalEngine (v : Variant) (e : Engine) : Engine :=
  if e.mode = .hmac then finalHmac v e else finalHash v e

/-- HINIT (R160): begin a plain hash.  Legal in every mode (R204). -/
def execHinit (var : BitVec 4) (s : State) : Result :=
  match variantOfCode var with
  | none => raiseViolation .badVariant s
  | some v => done s (startContext v .hash s.toEngine)

/-- UPDATE (R161, R186): announce `len` message bytes. -/
def execUpdate (len : BitVec 16) (s : State) : Result :=
  if modeAllows s.mode .update then done s { s.toEngine with rxCnt := len }
  else raiseViolation .badMode s

/-- FINAL (R162, R185): queue the digest or tag and consume the context. -/
def execFinal (s : State) : Result :=
  if modeAllows s.mode .final then withVariant s fun v => done s (finalEngine v s.toEngine)
  else raiseViolation .badMode s

end Sys2Proof.Machine
end

