-- ==== Sys2Proof/Machine/Dispatch.lean ====
section
/-! DEFINITION. One arm per constructor of `Instr`: the command rule the opcode map names (30_encoding.md R95). -/

namespace Sys2Proof.Machine

/-- Step 7 of the header step: execute the command rule (R93). -/
def exec (i : Instr) (s : State) : Host.Outcome State Fault Refusal :=
  match i with
  | .hinit var => Sys2Proof.Machine.execHinit var s
  | .update len => Sys2Proof.Machine.execUpdate len s
  | .final => Sys2Proof.Machine.execFinal s
  | .kinit var => Sys2Proof.Machine.execKinit var s
  | .key len => Sys2Proof.Machine.execKey len s
  | .kdone => Sys2Proof.Machine.execKdone s

end Sys2Proof.Machine
end

