-- ==== Sys2Proof/Machine/Events.lean ====
section
/-! DEFINITION. The events of a run (00_scope.md R13): the word step with its header step (30_encoding.md R92, R93,
R94), and what the next event of the environment does (R108, 70_reset_and_hazards.md R231).

The engine has no program counter and stores no command (10_state.md R30): the command it executes next is the
next word the host presents on IN. -/

namespace Sys2Proof.Machine

/-- The header step (R93): steps 1 to 4 are the decoder's, the rest `exec`'s. -/
def headerStep (w : Word) (s : State) : Result :=
  match decode w with
  | .ok i => exec i s
  | .error r => raiseViolation (rejectCause r) s

/-- `InWord(w)` where it is enabled (R92): a payload word if payload is expected, a header otherwise. -/
def acceptWord (w : Word) (s : State) : Result :=
  if s.rxCnt = 0 then headerStep w s else done s (payloadStep w s.toEngine)

/-- The next event happens if it is enabled, and is then no longer pending; an event that is not enabled stays
pending, since the host keeps the word offered and the engine does not take it (R110, R245). -/
def takeEvent (s : State) : Result :=
  match s.pending with
  | [] => hold s
  | .reset :: rest => .next { s with toEngine := resetEngine s.toEngine, pending := rest }
  | .inWord w :: rest => if inWordEnabled s.toEngine then acceptWord w { s with pending := rest } else hold s
  | .outWord :: rest => if outWordEnabled s.toEngine then .next (deliverWord { s with pending := rest }) else hold s

/-- `s` with `w` as the next word presented on IN, in a state that takes it as a header: no payload expected, no
digest word undelivered, no fault (R92).  From `State.reset` only `pending` changes (log 5). -/
def presentHeader (w : Word) (s : State) : State :=
  { s with pending := .inWord w :: s.pending, fault := false, rxCnt := 0, txCnt := 0 }

end Sys2Proof.Machine
end

