-- ==== Sys2Proof/Machine/Step.lean ====
section
/-! DEFINITION. One step of the machine: one event of a run (00_scope.md R13). -/

namespace Sys2Proof.Machine

/-- One step: the next event of the environment, if there is one and it is enabled. -/
def step (s : State) : Host.Outcome State Fault Refusal := takeEvent s

/-- `s` with the header word of `w` as the next word presented on IN, where `step` takes it as a header (log 5). -/
def State.withFetchWord (s : State) (nbits w : Nat) : State := presentHeader (tableWord nbits w) s

end Sys2Proof.Machine
end

