-- ==== Sys2Proof/Machine/Assembler.lean ====
section
/-! DEFINITION. The assembler notation and the pseudo-instructions `HASH` and `HMAC` (30_encoding.md R112, R113):
which IN words a line of the notation stands for.  The engine does not read this notation; the statements about
whole commands are made with it (log 15). -/

namespace Sys2Proof.Machine

/-- The `<bytes>` operand of R112. -/
inductive AsmBytes where
  /-- A quoted ASCII string: one byte a character, no escapes, no terminator. -/
  | ascii (text : String)
  /-- `x"…"`: pairs of hexadecimal digits. -/
  | hex (digits : List (BitVec 4 × BitVec 4))
  /-- `<byte>*<count>`. -/
  | rep (byte : Byte) (count : Nat)
deriving DecidableEq, Repr

/-- The bytes an operand stands for (R112). -/
def AsmBytes.bytes : AsmBytes → List Byte
  | .ascii text => text.toList.map fun c => BitVec.ofNat 8 c.toNat
  | .hex digits => digits.map fun d => d.1 ++ d.2
  | .rep byte count => List.replicate count byte

/-- One line of the notation (R112). -/
inductive AsmLine where
  | hinit (v : Variant)
  | kinit (v : Variant)
  | update (operand : AsmBytes)
  | key (operand : AsmBytes)
  | kdone
  | final
  /-- `.word 0x…`. -/
  | word (w : Word)
deriving DecidableEq, Repr

/-- The code of a variant in a header (R96). -/
def variantField : Variant → BitVec 4
  | .sha224 => 1
  | .sha256 => 2

/-- Bytes packed into payload words, the earliest byte in bits 31:24, the unused low-order bytes of the last word
zero (20_memory.md R68, R112). -/
def packWords : List Byte → List Word
  | [] => []
  | [b0] => [be32 b0 0 0 0]
  | [b0, b1] => [be32 b0 b1 0 0]
  | [b0, b1, b2] => [be32 b0 b1 b2 0]
  | b0 :: b1 :: b2 :: b3 :: rest => be32 b0 b1 b2 b3 :: packWords rest

/-- An UPDATE command with its payload (R112), for at most 65535 bytes (R97). -/
def updateWords (bs : List Byte) : List Word := encode (.update (BitVec.ofNat 16 bs.length)) :: packWords bs

/-- A KEY command with its payload (R112), for at most 65535 bytes. -/
def keyWords (bs : List Byte) : List Word := encode (.key (BitVec.ofNat 16 bs.length)) :: packWords bs

/-- The IN words of a line (R112). -/
def assemble : AsmLine → List Word
  | .hinit v => [encode (.hinit (variantField v))]
  | .kinit v => [encode (.kinit (variantField v))]
  | .update operand => updateWords operand.bytes
  | .key operand => keyWords operand.bytes
  | .kdone => [encode .kdone]
  | .final => [encode .final]
  | .word w => [w]

/-- `HASH <variant>, <bytes>`, the operand cut into the chunks given (R113). -/
def hashWords (v : Variant) (chunks : List (List Byte)) : List Word :=
  encode (.hinit (variantField v)) :: (chunks.flatMap updateWords ++ [encode .final])

/-- `HMAC <variant>, <key>, <bytes>`, the two operands cut into the chunks given (R113). -/
def hmacWords (v : Variant) (keyChunks chunks : List (List Byte)) : List Word :=
  encode (.kinit (variantField v)) ::
    (keyChunks.flatMap keyWords ++ encode .kdone :: (chunks.flatMap updateWords ++ [encode .final]))

/-- The events of presenting words on IN, in order (00_scope.md R13). -/
def presentAll (ws : List Word) : List Event := ws.map .inWord

/-- The events of taking `n` words from OUT. -/
def takeAll (n : Nat) : List Event := List.replicate n .outWord

end Sys2Proof.Machine
end

