-- ==== Sys2Proof/Machine/Reference.lean ====
section
/-! DEFINITION. What the streaming engine is compared with: SHA-224/SHA-256 and HMAC of a whole message given at
once (41_hash_context.md R165, 42_hmac.md R184, R187), and the two hardware forms the spec describes beside its
functions, the sliding-window schedule (40_compression_core.md R126) and the padding state machine
(41_hash_context.md R156).  No step of the machine uses this file (log 14). -/

namespace Sys2Proof.Machine

/-! ### The whole-message hash (R155 over the whole message, R130, R157) -/

/-- A message with its padding: `0x80`, zero bytes up to length 56 mod 64, and the bit length (R155). -/
def paddedMessage (m : List Byte) : List Byte :=
  m ++ 0x80 :: (List.replicate ((55 + 64 - m.length % 64) % 64) 0 ++ bytes64 (BitVec.ofNat 64 (8 * m.length)))

/-- The first `n` blocks of a byte sequence. -/
def blocksOf : Nat → List Byte → List Block
  | 0, _ => []
  | n + 1, bs => padBlock (bs.take 64) :: blocksOf n (bs.drop 64)

/-- The final HashState of a message: the blocks of the padded message compressed in order from the IV. -/
def messageState (v : Variant) (m : List Byte) : HashState :=
  (blocksOf ((paddedMessage m).length / 64) (paddedMessage m)).foldl compress (iv v)

/-- The digest of a message as words: `Hash_v(m)`. -/
def messageDigest (v : Variant) (m : List Byte) : List Word := digestOf (messageState v m) v

/-- The digest of a message as bytes. -/
def messageDigestBytes (v : Variant) (m : List Byte) : List Byte := digestBytes (messageState v m) v

/-! ### HMAC (R184, R187) -/

/-- `K0` of a key, by its length (R184). -/
def keyBlockOf (v : Variant) (key : List Byte) : Block :=
  if key.length ≤ 64 then padBlock key else padBlock (messageDigestBytes v key)

/-- `Hash_v((K0 ^ 0x5c^64) ‖ Hash_v((K0 ^ 0x36^64) ‖ m))` (R187). -/
def hmacTag (v : Variant) (key m : List Byte) : List Word :=
  messageDigest v (xorPad (keyBlockOf v key) opadByte ++
    messageDigestBytes v (xorPad (keyBlockOf v key) ipadByte ++ m))

/-! ### The sliding-window schedule (R126) -/

/-- The 16-entry store after the schedule load. -/
def windowLoad (b : Block) : Vector Word 16 := Vector.ofFn (blockWord b)

/-- The word at index `t mod 16` of the store. -/
def windowAt (w : Vector Word 16) (t : Nat) : Word := w[t % 16]'(Nat.mod_lt t (by decide))

/-- The update made just before round `t`, for `t >= 16` (R126). -/
def windowUpdate (w : Vector Word 16) (t : Nat) : Vector Word 16 :=
  w.set (t % 16)
    (smallSigma1 (windowAt w (t - 2)) + windowAt w (t - 7) + smallSigma0 (windowAt w (t - 15)) + windowAt w t)
    (Nat.mod_lt t (by decide))

/-- The store as round `t` reads it. -/
def windowBefore (b : Block) : Nat → Vector Word 16
  | 0 => windowLoad b
  | t + 1 => if t + 1 < 16 then windowBefore b t else windowUpdate (windowBefore b t) (t + 1)

/-! ### The padding state machine (R156) -/

/-- The phase register of the padding state machine. -/
inductive PadPhase where
  | mark
  | zero
  /-- `j` bytes of the length field have been absorbed. -/
  | lenb (j : Nat)
  | done
deriving DecidableEq, Repr

/-- The padding state machine: the context it pads, its phase and the captured length. -/
structure PadState where
  ctx : HashCtx
  phase : PadPhase
  total : Length
deriving DecidableEq, Repr

/-- One move of the padding state machine (R156). -/
def padMove (p : PadState) : PadState :=
  match p.phase with
  | .mark => { ctx := absorbPad p.ctx 0x80, phase := .zero, total := totalBits p.ctx }
  | .zero =>
    if p.ctx.fill.val ≠ 56 then { p with ctx := absorbPad p.ctx 0 }
    else { p with phase := .lenb 0 }
  | .lenb j =>
    { p with ctx := absorbPad p.ctx ((bytes64 p.total).getD j 0), phase := if j = 7 then .done else .lenb (j + 1) }
  | .done => p

/-- `n` moves of the padding state machine. -/
def padMoves : Nat → PadState → PadState
  | 0, p => p
  | n + 1, p => padMoves n (padMove p)

end Sys2Proof.Machine
end

