-- ==== Sys2Proof/Safety.lean ====
section
/-! DEFINITION. The terms in which claims about runs are made: the state invariants of the spec (10_state.md R50),
what a live context holds, and which states differ only in secrets. -/

namespace Sys2Proof.Machine

/-- The state invariants of R50, between events.  The item numbers are the spec's.  Item 6 says "the key bytes
received since KINIT" as a byte sequence that exists. -/
structure Inv (e : Engine) : Prop where
  /-- Item 1, `LEN`. -/
  lenBlocks : ∀ c, (ctxOf e c).len.toNat % 512 = 0
  /-- Item 1, `BUF`. -/
  bufTail : ∀ c (i : Fin 64), (ctxOf e c).fill ≤ i → (ctxOf e c).buf[i] = 0
  /-- Item 2. -/
  idle : e.mode = .idle → e.variant = none ∧ e.ctx0 = HashCtx.zero ∧ e.ctx1 = HashCtx.zero ∧
    e.keyBlk = zeroBlock ∧ e.keyCnt = 0 ∧ e.rxCnt = 0
  /-- Item 3. -/
  live : e.mode ≠ .idle → e.variant ≠ none
  /-- Item 4. -/
  outerClear : e.mode = .hash ∨ e.mode = .keying → e.ctx1 = HashCtx.zero
  /-- Item 5. -/
  keyClear : e.mode ≠ .keying → e.keyBlk = zeroBlock ∧ e.keyCnt = 0
  /-- Item 6. -/
  keying : e.mode = .keying → ∃ (v : Variant) (key : List Byte), e.variant = some v ∧
    e.keyCnt.val = min key.length 65 ∧ totalBits e.ctx0 = BitVec.ofNat 64 (8 * key.length) ∧
    e.ctx0 = absorbAll (ctxInit v) key
  /-- Item 7. -/
  hmac : e.mode = .hmac → e.ctx1.fill = 0 ∧ e.ctx1.len = 512
  /-- Item 8. -/
  queued : e.txCnt ≠ 0 → e.mode = .idle ∧ e.rxCnt = 0 ∧ e.fault = false ∧
    (e.txRd.val + e.txCnt.val = 7 ∨ e.txRd.val + e.txCnt.val = 8)
  /-- Item 9. -/
  drained : e.txCnt = 0 → e.txRd = 0 ∧ e.txq = zeroWords
  /-- Not in R50's list, and needed for item 9 to be kept: the slots of `TXQ` outside the words not yet delivered
  are zero (R37, R108).  DEDUCED (log 9). -/
  delivered : ∀ i : Fin 8, i < e.txRd ∨ e.txRd.val + e.txCnt.val ≤ i.val → e.txq[i] = 0
  /-- Item 10. -/
  faultCause : e.fault = true ↔ e.cause ≠ none
  /-- Item 10. -/
  faultQuiet : e.fault = true → e.txCnt = 0

/-- What a live context holds: in HASH the bytes of a message, in KEYING the bytes of a key with its first 64 in
`KEYBLK`, in HMAC the padded key and the bytes of a message in the inner context and the padded key in the outer
one (10_state.md R50 item 6, 42_hmac.md R183, R186).  The padded key is `keyBlockOf`'s, which for a key above 64
bytes rests on the model's reading of the whole-message hash (log 14). -/
structure Genuine (e : Engine) : Prop where
  hash : e.mode = .hash → ∃ v m, e.variant = some v ∧ e.ctx0 = absorbAll (ctxInit v) m
  keying : e.mode = .keying → ∃ v key, e.variant = some v ∧ e.keyCnt.val = min key.length 65 ∧
    e.keyBlk = padBlock key ∧ e.ctx0 = absorbAll (ctxInit v) key
  hmac : e.mode = .hmac → ∃ v key m, e.variant = some v ∧
    e.ctx0 = absorbAll (ctxInit v) (xorPad (keyBlockOf v key) ipadByte ++ m) ∧
    e.ctx1 = absorbAll (ctxInit v) (xorPad (keyBlockOf v key) opadByte)

/-- Two states that agree on everything but the contents of the contexts and of the key block: `H`, `BUF`,
`FILL`, `LEN`, `KEYBLK` and `KEYCNT`, to which the host has no read path (60_exceptions.md R215, 10_state.md R40). -/
def sameButSecrets (s t : State) : Prop :=
  s.variant = t.variant ∧ s.mode = t.mode ∧ s.fault = t.fault ∧ s.cause = t.cause ∧
    s.rxCnt = t.rxCnt ∧ s.txq = t.txq ∧ s.txRd = t.txRd ∧ s.txCnt = t.txCnt ∧ s.pending = t.pending ∧
    s.outStream = t.outStream

/-- `n` steps of the machine. -/
def runSteps (n : Nat) (s : State) : Result := Host.Core.run Sys2Proof.core n s

/-- The engine is ready for a header word: no fault, no digest word undelivered, no payload expected (R92). -/
def ready (e : Engine) : Prop := e.fault = false ∧ e.txCnt = 0 ∧ e.rxCnt = 0

end Sys2Proof.Machine
end

