-- ==== Sys2Proof/Certificates/Slice0/Obligations.lean ====
section
/-! DEFINITION. The statements for the provers, each a rule of the spec or a consequence of several.  A next state is
written as the old state with the registers that change, so each such equation is also the frame: every register,
buffer byte, queue word and stream it does not name is unchanged.

Two conventions of the model stand behind every statement about `step` and `runSteps`: the events the environment
performs are the list `pending`, the next one first (log 1), and the words delivered on OUT are the list `outStream`
(log 2). -/

open Sys2Proof Sys2Proof.Machine

/-! ### The six commands -/

/-- R160, with the primitives it is made of (R150, R151).  The three clauses are the reserved-field exception, the
bad-variant exception, and the effect, which is the same in every mode. -/
def Obligations.HinitStartsAHashContext : Prop :=
  ∀ (s : State) (var : BitVec 4) (rsv : BitVec 8) (len : BitVec 16),
    (rsv ≠ 0 ∨ len ≠ 0 →
      headerStep (headerWord 1 var rsv len) s = .next { s with fault := true, cause := some .reservedField }) ∧
    (var ≠ 1 ∧ var ≠ 2 →
      headerStep (headerWord 1 var 0 0) s = .next { s with fault := true, cause := some .badVariant } ∧
      exec (.hinit var) s = .next { s with fault := true, cause := some .badVariant }) ∧
    (∀ v : Variant, (var = 1 ∧ v = .sha224) ∨ (var = 2 ∧ v = .sha256) →
      headerStep (headerWord 1 var 0 0) s = exec (.hinit var) s ∧
      exec (.hinit var) s = .next { s with
        ctx0 := { h := iv v, buf := zeroBlock, fill := 0, len := 0 }
        ctx1 := { h := zeroWords, buf := zeroBlock, fill := 0, len := 0 }
        keyBlk := zeroBlock
        keyCnt := 0
        variant := some v
        mode := .hash })

/-- R161 and R186: the exceptions, the header step, and the net effect of the whole command with its payload. -/
def Obligations.UpdateAbsorbsItsPayload : Prop :=
  ∀ s : State,
    (∀ (var : BitVec 4) (rsv : BitVec 8) (len : BitVec 16), var ≠ 0 ∨ rsv ≠ 0 →
      headerStep (headerWord 2 var rsv len) s = .next { s with fault := true, cause := some .reservedField }) ∧
    (∀ len : BitVec 16, s.mode = .idle ∨ s.mode = .keying →
      headerStep (headerWord 2 0 0 len) s = .next { s with fault := true, cause := some .badMode } ∧
      exec (.update len) s = .next { s with fault := true, cause := some .badMode }) ∧
    (∀ len : BitVec 16, s.mode = .hash ∨ s.mode = .hmac →
      headerStep (headerWord 2 0 0 len) s = exec (.update len) s ∧
      exec (.update len) s = .next { s with rxCnt := len }) ∧
    (∀ (m : List Byte) (rest : List Event), s.mode = .hash ∨ s.mode = .hmac → ready s.toEngine →
      m.length ≤ 65535 → s.pending = presentAll (updateWords m) ++ rest →
      runSteps (updateWords m).length s = .next { s with ctx0 := m.foldl absorb s.ctx0, pending := rest })

/-- R162: FINAL in MODE = HASH.  The eighth slot of `TXQ` is not written for SHA-224.  After it no IN word is enabled
until the queue is drained. -/
def Obligations.FinalQueuesTheDigestOfAHashContext : Prop :=
  ∀ s : State,
    (∀ (var : BitVec 4) (rsv : BitVec 8) (len : BitVec 16), var ≠ 0 ∨ rsv ≠ 0 ∨ len ≠ 0 →
      headerStep (headerWord 3 var rsv len) s = .next { s with fault := true, cause := some .reservedField }) ∧
    (s.mode = .idle ∨ s.mode = .keying →
      headerStep (headerWord 3 0 0 0) s = .next { s with fault := true, cause := some .badMode } ∧
      exec .final s = .next { s with fault := true, cause := some .badMode }) ∧
    (∀ v : Variant, s.mode = .hash → s.variant = some v →
      headerStep (headerWord 3 0 0 0) s = exec .final s ∧ ∃ t : State, exec .final s = .next t ∧ t = { s with
        txq :=
          match v with
          | .sha224 =>
            #v[(finalize s.ctx0).h[0], (finalize s.ctx0).h[1], (finalize s.ctx0).h[2], (finalize s.ctx0).h[3],
              (finalize s.ctx0).h[4], (finalize s.ctx0).h[5], (finalize s.ctx0).h[6], s.txq[7]]
          | .sha256 => (finalize s.ctx0).h
        txRd := 0
        txCnt := match v with | .sha224 => 7 | .sha256 => 8
        ctx0 := { h := zeroWords, buf := zeroBlock, fill := 0, len := 0 }
        ctx1 := { h := zeroWords, buf := zeroBlock, fill := 0, len := 0 }
        keyBlk := zeroBlock
        keyCnt := 0
        variant := none
        mode := .idle } ∧
      inWordEnabled t.toEngine = false ∧
      (∀ e : Engine, inWordEnabled e = true → e.txCnt = 0))

/-- R185: FINAL in MODE = HMAC, its five steps, with the inner digest `d` and the finalized outer context `o`. -/
def Obligations.FinalQueuesTheTagOfAnHmacContext : Prop :=
  ∀ s : State,
    (∀ (var : BitVec 4) (rsv : BitVec 8) (len : BitVec 16), var ≠ 0 ∨ rsv ≠ 0 ∨ len ≠ 0 →
      headerStep (headerWord 3 var rsv len) s = .next { s with fault := true, cause := some .reservedField }) ∧
    (s.mode = .idle ∨ s.mode = .keying →
      exec .final s = .next { s with fault := true, cause := some .badMode }) ∧
    (∀ (v : Variant) (d : List Byte) (o : HashCtx), s.mode = .hmac → s.variant = some v →
      d = (((finalize s.ctx0).h.toList.take (match v with | .sha224 => 7 | .sha256 => 8)).flatMap bytes32) →
      o = finalize (d.foldl absorb s.ctx1) →
      headerStep (headerWord 3 0 0 0) s = exec .final s ∧
      exec .final s = .next { s with
        txq :=
          match v with
          | .sha224 => #v[o.h[0], o.h[1], o.h[2], o.h[3], o.h[4], o.h[5], o.h[6], s.txq[7]]
          | .sha256 => o.h
        txRd := 0
        txCnt := match v with | .sha224 => 7 | .sha256 => 8
        ctx0 := { h := zeroWords, buf := zeroBlock, fill := 0, len := 0 }
        ctx1 := { h := zeroWords, buf := zeroBlock, fill := 0, len := 0 }
        keyBlk := zeroBlock
        keyCnt := 0
        variant := none
        mode := .idle })

/-- R180. -/
def Obligations.KinitStartsKeyEntry : Prop :=
  ∀ (s : State) (var : BitVec 4) (rsv : BitVec 8) (len : BitVec 16),
    (rsv ≠ 0 ∨ len ≠ 0 →
      headerStep (headerWord 4 var rsv len) s = .next { s with fault := true, cause := some .reservedField }) ∧
    (var ≠ 1 ∧ var ≠ 2 →
      headerStep (headerWord 4 var 0 0) s = .next { s with fault := true, cause := some .badVariant } ∧
      exec (.kinit var) s = .next { s with fault := true, cause := some .badVariant }) ∧
    (∀ v : Variant, (var = 1 ∧ v = .sha224) ∨ (var = 2 ∧ v = .sha256) →
      headerStep (headerWord 4 var 0 0) s = exec (.kinit var) s ∧
      exec (.kinit var) s = .next { s with
        ctx0 := { h := iv v, buf := zeroBlock, fill := 0, len := 0 }
        ctx1 := { h := zeroWords, buf := zeroBlock, fill := 0, len := 0 }
        keyBlk := zeroBlock
        keyCnt := 0
        variant := some v
        mode := .keying })

/-- R181: the exceptions, the header step, and the net effect of the whole command with its payload. -/
def Obligations.KeyPassesItsPayloadToTheKeyRegisters : Prop :=
  ∀ s : State,
    (∀ (var : BitVec 4) (rsv : BitVec 8) (len : BitVec 16), var ≠ 0 ∨ rsv ≠ 0 →
      headerStep (headerWord 5 var rsv len) s = .next { s with fault := true, cause := some .reservedField }) ∧
    (∀ len : BitVec 16, s.mode ≠ .keying →
      headerStep (headerWord 5 0 0 len) s = .next { s with fault := true, cause := some .badMode } ∧
      exec (.key len) s = .next { s with fault := true, cause := some .badMode }) ∧
    (∀ len : BitVec 16, s.mode = .keying →
      headerStep (headerWord 5 0 0 len) s = exec (.key len) s ∧
      exec (.key len) s = .next { s with rxCnt := len }) ∧
    (∀ (ks : List Byte) (rest : List Event), s.mode = .keying → ready s.toEngine →
      ks.length ≤ 65535 → s.pending = presentAll (keyWords ks) ++ rest →
      runSteps (keyWords ks).length s =
        .next { s with toEngine := ks.foldl keyByte s.toEngine, pending := rest })

/-- R183: KDONE, with `K0` as its step 1 gives it. -/
def Obligations.KdoneSeedsBothContexts : Prop :=
  ∀ s : State,
    (∀ (var : BitVec 4) (rsv : BitVec 8) (len : BitVec 16), var ≠ 0 ∨ rsv ≠ 0 ∨ len ≠ 0 →
      headerStep (headerWord 6 var rsv len) s = .next { s with fault := true, cause := some .reservedField }) ∧
    (s.mode ≠ .keying →
      headerStep (headerWord 6 0 0 0) s = .next { s with fault := true, cause := some .badMode } ∧
      exec .kdone s = .next { s with fault := true, cause := some .badMode }) ∧
    (∀ (v : Variant) (k0 : Block), s.mode = .keying → s.variant = some v →
      k0 = (if s.keyCnt.val ≤ 64 then s.keyBlk
        else padBlock (((finalize s.ctx0).h.toList.take (match v with | .sha224 => 7 | .sha256 => 8)).flatMap
          bytes32)) →
      headerStep (headerWord 6 0 0 0) s = exec .kdone s ∧
      exec .kdone s = .next { s with
        ctx0 := { h := compress (iv v) (k0.map (· ^^^ 0x36)), buf := zeroBlock, fill := 0, len := 512 }
        ctx1 := { h := compress (iv v) (k0.map (· ^^^ 0x5c)), buf := zeroBlock, fill := 0, len := 512 }
        keyBlk := zeroBlock
        keyCnt := 0
        mode := .hmac })

/-! ### Whole commands and whole messages -/

/-- R164: how a message or a key is cut into UPDATE or KEY commands leaves no trace in the state. -/
def Obligations.ChunkingLeavesNoTrace : Prop :=
  ∀ (s : State) (cs ds : List (List Byte)) (rest : List Event),
    ready s.toEngine → (∀ c ∈ cs, c.length ≤ 65535) → (∀ d ∈ ds, d.length ≤ 65535) → cs.flatten = ds.flatten →
    (s.mode = .hash ∨ s.mode = .hmac →
      ∃ t : State,
        runSteps (cs.flatMap updateWords).length
          { s with pending := presentAll (cs.flatMap updateWords) ++ rest } = .next t ∧
        runSteps (ds.flatMap updateWords).length
          { s with pending := presentAll (ds.flatMap updateWords) ++ rest } = .next t ∧
        t = { s with ctx0 := cs.flatten.foldl absorb s.ctx0, pending := rest }) ∧
    (s.mode = .keying →
      ∃ t : State,
        runSteps (cs.flatMap keyWords).length
          { s with pending := presentAll (cs.flatMap keyWords) ++ rest } = .next t ∧
        runSteps (ds.flatMap keyWords).length
          { s with pending := presentAll (ds.flatMap keyWords) ++ rest } = .next t ∧
        t = { s with toEngine := cs.flatten.foldl keyByte s.toEngine, pending := rest })

/-- R165 with the pseudo-instruction `HASH` of R113: whatever the mode and the chunking, the words delivered on OUT
are the digest of the message given at once, and the engine ends in its reset state.  `messageDigest` is the model's
own reading of the hash of a whole message (log 14); the bound on the length is that of R165 (log 19). -/
def Obligations.HashDeliversTheDigestOfItsMessage : Prop :=
  ∀ (s : State) (v : Variant) (chunks : List (List Byte)) (rest : List Event),
    Inv s.toEngine → ready s.toEngine → (∀ c ∈ chunks, c.length ≤ 65535) → chunks.flatten.length < 2 ^ 61 →
    s.pending = presentAll (hashWords v chunks) ++ (takeAll (digestWords v) ++ rest) →
    runSteps ((hashWords v chunks).length + digestWords v) s =
      .next { Engine.reset with
        pending := rest
        outStream := s.outStream ++ messageDigest v chunks.flatten }

/-- R187 with the pseudo-instruction `HMAC` of R113: whatever the mode and the chunking of key and message, the words
delivered on OUT are the tag of the whole key and message, and the engine ends in its reset state.  `hmacTag` is the
formula of R187 over `messageDigest`, the model's own reading of the hash of a whole message (log 14); the bound on the
lengths is that of the standard (R244, log 19). -/
def Obligations.HmacDeliversTheTagOfItsMessage : Prop :=
  ∀ (s : State) (v : Variant) (keyChunks chunks : List (List Byte)) (rest : List Event),
    Inv s.toEngine → ready s.toEngine →
    (∀ c ∈ keyChunks, c.length ≤ 65535) → (∀ c ∈ chunks, c.length ≤ 65535) →
    keyChunks.flatten.length < 2 ^ 61 → 64 + chunks.flatten.length < 2 ^ 61 →
    s.pending = presentAll (hmacWords v keyChunks chunks) ++ (takeAll (digestWords v) ++ rest) →
    runSteps ((hmacWords v keyChunks chunks).length + digestWords v) s =
      .next { Engine.reset with
        pending := rest
        outStream := s.outStream ++ hmacTag v keyChunks.flatten chunks.flatten }

/-! ### Decoding and the header step -/

/-- R92, R93: an enabled header word that decodes to a command is executed; nothing else happens in that step but
that the word is consumed. -/
def Obligations.StepRunsTheDecodedCommand : Prop :=
  ∀ (s : State) (w : Word) (rest : List Event) (i : Instr),
    s.pending = .inWord w :: rest → ready s.toEngine → decode w = .ok i →
    step s = exec i { s with pending := rest }

/-- R93, with the classification of R98 and the priority of R205: the six checks in order, written on the fields of
the word, and then the command. -/
def Obligations.HeaderChecksInTheirOrder : Prop :=
  ∀ (w : Word) (s : State) (opc var rsv len : Nat),
    opc = w.toNat / 2 ^ 28 → var = w.toNat / 2 ^ 24 % 2 ^ 4 → rsv = w.toNat / 2 ^ 16 % 2 ^ 8 →
    len = w.toNat % 2 ^ 16 →
    headerStep w s =
      if opc ∉ [1, 2, 3, 4, 5, 6] then .next { s with fault := true, cause := some .illegalOpcode }
      else if rsv ≠ 0 then .next { s with fault := true, cause := some .reservedField }
      else if opc ∈ [2, 3, 5, 6] ∧ var ≠ 0 then .next { s with fault := true, cause := some .reservedField }
      else if opc ∈ [1, 3, 4, 6] ∧ len ≠ 0 then .next { s with fault := true, cause := some .reservedField }
      else if opc ∈ [1, 4] ∧ var ∉ [1, 2] then .next { s with fault := true, cause := some .badVariant }
      else if (opc ∈ [2, 3] ∧ s.mode ≠ .hash ∧ s.mode ≠ .hmac) ∨ (opc ∈ [5, 6] ∧ s.mode ≠ .keying) then
        .next { s with fault := true, cause := some .badMode }
      else if opc = 1 then exec (.hinit (BitVec.ofNat 4 var)) s
      else if opc = 2 then exec (.update (BitVec.ofNat 16 len)) s
      else if opc = 3 then exec .final s
      else if opc = 4 then exec (.kinit (BitVec.ofNat 4 var)) s
      else if opc = 5 then exec (.key (BitVec.ofNat 16 len)) s
      else exec .kdone s

/-- R95: a word is a row's command iff `w & mask = match`, and the fields outside the mask are the operand. -/
def Obligations.OpcodeMapSelectsTheHeaders : Prop :=
  ∀ w : Word,
    (w &&& 0xF0FFFFFF = 0x10000000 ↔ ∃ var, decode w = .ok (.hinit var)) ∧
    (w &&& 0xFFFF0000 = 0x20000000 ↔ ∃ len, decode w = .ok (.update len)) ∧
    (w &&& 0xFFFFFFFF = 0x30000000 ↔ decode w = .ok .final) ∧
    (w &&& 0xF0FFFFFF = 0x40000000 ↔ ∃ var, decode w = .ok (.kinit var)) ∧
    (w &&& 0xFFFF0000 = 0x50000000 ↔ ∃ len, decode w = .ok (.key len)) ∧
    (w &&& 0xFFFFFFFF = 0x60000000 ↔ decode w = .ok .kdone) ∧
    (∀ var, decode w = .ok (.hinit var) ∨ decode w = .ok (.kinit var) → var = w.extractLsb' 24 4) ∧
    (∀ len, decode w = .ok (.update len) ∨ decode w = .ok (.key len) → len = w.extractLsb' 0 16)

/-- Decoding an encoded command gives it back, with every operand at every value (R90, R95). -/
def Obligations.DecodeOfEncodeIsTheCommand : Prop :=
  ∀ i : Instr, decode (encode i) = .ok i

/-- The other direction: a word that decodes to a command is the one encoding of that command (R90, R95). -/
def Obligations.EncodeOfDecodeIsTheWord : Prop :=
  ∀ (w : Word) (i : Instr), decode w = .ok i → encode i = w

/-- A few header words, written out from R95 and R98, and what they decode to. -/
def Obligations.HeaderWordsOfTheMap : Prop :=
  decode 0x12000000 = .ok (.hinit 2) ∧ decode 0x2000ffff = .ok (.update 65535) ∧ decode 0x30000000 = .ok .final ∧
  decode 0x41000000 = .ok (.kinit 1) ∧ decode 0x50000004 = .ok (.key 4) ∧ decode 0x60000000 = .ok .kdone ∧
  decode 0x00000000 = .error .illegalOpcode ∧ decode 0xffffffff = .error .illegalOpcode ∧
  decode 0x20ff0000 = .error .reservedField ∧ decode 0x61000000 = .error .reservedField

/-- R163 and R204: the mode machine.  A well-formed command either executes and leads to the mode of the table, or
raises BAD_MODE; no other event but `Reset` changes the mode.  The premise on `VARIANT` is R50 item 3. -/
def Obligations.CommandsMoveTheModeMachine : Prop :=
  (∀ (s : State) (i : Instr), i.wellFormed = true → (s.mode ≠ .idle → s.variant ≠ none) →
    match (match s.mode, i with
      | _, .hinit _ => some Mode.hash
      | _, .kinit _ => some .keying
      | .hash, .update _ => some .hash
      | .hmac, .update _ => some .hmac
      | .hash, .final => some .idle
      | .hmac, .final => some .idle
      | .keying, .key _ => some .keying
      | .keying, .kdone => some .hmac
      | _, _ => none) with
    | some m => ∃ t : State, exec i s = .next t ∧ t.mode = m ∧ t.fault = s.fault ∧ t.cause = s.cause
    | none => exec i s = .next { s with fault := true, cause := some .badMode }) ∧
  (∀ s t : State, step s = .next t → t.mode = s.mode ∨
    (∃ rest, s.pending = .reset :: rest ∧ t.mode = .idle) ∨
    (∃ w rest i, s.pending = .inWord w :: rest ∧ s.rxCnt = 0 ∧ decode w = .ok i))

/-! ### The events -/

/-- R92: when `InWord` is enabled, and what a word is then taken as.  That where it is not enabled it does not happen, and
a next state, if there is one, is the same state with the word still offered, is the model's choice (log 4). -/
def Obligations.InWordIsTakenOnlyWhenEnabled : Prop :=
  ∀ (s : State) (w : Word) (rest : List Event), s.pending = .inWord w :: rest →
    (s.fault = false ∧ s.txCnt = 0 ∧ s.rxCnt ≠ 0 →
      step s = .next { s with toEngine := payloadStep w s.toEngine, pending := rest }) ∧
    (s.fault = false ∧ s.txCnt = 0 ∧ s.rxCnt = 0 → step s = headerStep w { s with pending := rest }) ∧
    (s.fault = true ∨ s.txCnt ≠ 0 → ∀ t : State, step s = .next t → t = s)

/-- R94: the bytes a payload word carries, their order, where they go, and that the bits below them are ignored. -/
def Obligations.PayloadWordIsTakenBytewise : Prop :=
  ∀ (s : State) (w : Word) (rest : List Event) (k : Nat) (bs : List Byte),
    s.pending = .inWord w :: rest → s.fault = false → s.txCnt = 0 → s.rxCnt ≠ 0 →
    k = min 4 s.rxCnt.toNat →
    bs = [w.extractLsb' 24 8, w.extractLsb' 16 8, w.extractLsb' 8 8, w.extractLsb' 0 8].take k →
    (s.mode = .keying → step s = .next { s with
      toEngine := { bs.foldl keyByte s.toEngine with rxCnt := s.rxCnt - BitVec.ofNat 16 k }
      pending := rest }) ∧
    (s.mode ≠ .keying → step s = .next { s with
      ctx0 := bs.foldl absorb s.ctx0
      rxCnt := s.rxCnt - BitVec.ofNat 16 k
      pending := rest }) ∧
    (∀ w' : Word, w' >>> (32 - 8 * k) = w >>> (32 - 8 * k) →
      step { s with pending := .inWord w' :: rest } = step s) ∧
    (Inv s.toEngine → s.mode ≠ .idle)

/-- R108.  That where `OutWord` is not enabled a next state, if there is one, is the same state, is the model's choice
(log 4).  `TXRD + 1` is taken in three bits, so it is 0 after 7: the model's reading for the states with `TXRD` = 7 and
`TXCNT` above 1, which no run reaches (log 8). -/
def Obligations.OutWordDeliversAndZeroesItsSlot : Prop :=
  ∀ (s : State) (rest : List Event), s.pending = .outWord :: rest →
    (s.txCnt ≠ 0 → ∃ t : State, step s = .next t ∧
      t.txCnt.val = s.txCnt.val - 1 ∧
      t = { s with
        outStream := s.outStream ++ [s.txq[s.txRd]]
        txq := s.txq.set s.txRd.val 0 s.txRd.isLt
        txCnt := t.txCnt
        txRd := if s.txCnt = 1 then 0 else s.txRd + 1
        pending := rest }) ∧
    (s.txCnt = 0 → ∀ t : State, step s = .next t → t = s)

/-- R37 and R231: the queued words are delivered in index order, and the engine is then in its reset state.  That the
slots already delivered are zero is the eleventh item of `Inv` (log 9). -/
def Obligations.QueueDrainsInOrderToTheResetState : Prop :=
  ∀ (s : State) (rest : List Event), Inv s.toEngine → s.txCnt ≠ 0 →
    s.pending = takeAll s.txCnt.val ++ rest →
    runSteps s.txCnt.val s = .next { Engine.reset with
      pending := rest
      outStream := s.outStream ++ (s.txq.toList.drop s.txRd.val).take s.txCnt.val }

/-- R231: `Reset` is enabled in every state, sets every register, and the outputs are then as R231 gives them.  The words
already delivered on OUT stay delivered: that list is the model's (log 2). -/
def Obligations.ResetSetsEveryRegister : Prop :=
  ∀ (s : State) (rest : List Event), s.pending = .reset :: rest →
    ∃ t : State, step s = .next t ∧
      t = { s with
        ctx0 := { h := Vector.replicate 8 0, buf := Vector.replicate 64 0, fill := 0, len := 0 }
        ctx1 := { h := Vector.replicate 8 0, buf := Vector.replicate 64 0, fill := 0, len := 0 }
        variant := none
        mode := .idle
        fault := false
        cause := none
        keyBlk := Vector.replicate 64 0
        keyCnt := 0
        rxCnt := 0
        txq := Vector.replicate 8 0
        txRd := 0
        txCnt := 0
        pending := rest } ∧
      inWordEnabled t.toEngine = true ∧ outValid t.toEngine = false ∧ stFault t.toEngine = 0 ∧
      stCause t.toEngine = 0 ∧ stMode t.toEngine = 0 ∧ stVariant t.toEngine = 0 ∧
      t.toEngine = State.reset.toEngine

/-- R73: a step takes at most one event, in order, and OUT grows only by a word the host takes.  That a step in which
no event happens leaves the state as it is, is the model's choice (log 4). -/
def Obligations.EventsAreTakenOneAtATimeInOrder : Prop :=
  ∀ s t : State, step s = .next t →
    (t = s ∧ (s.pending = [] ∨ ∃ ev rest, s.pending = ev :: rest ∧ ev ≠ .reset)) ∨
    (∃ w rest, s.pending = .inWord w :: rest ∧ t.pending = rest ∧ t.outStream = s.outStream ∧
      s.fault = false ∧ s.txCnt = 0) ∨
    (∃ rest, s.pending = .outWord :: rest ∧ t.pending = rest ∧ s.txCnt ≠ 0 ∧
      t.outStream = s.outStream ++ [s.txq[s.txRd]]) ∨
    (∃ rest, s.pending = .reset :: rest ∧ t.pending = rest ∧ t.outStream = s.outStream)

/-! ### The exception -/

/-- R200 and R206: `FAULT` is set only by a header word, and trap entry changes `FAULT` and `CAUSE` and nothing else
of the engine. -/
def Obligations.OnlyHeadersRaiseAndOnlyTheFlagsChange : Prop :=
  ∀ s t : State, step s = .next t → s.fault = false → t.fault = true →
    ∃ (w : Word) (rest : List Event) (c : Cause), s.pending = .inWord w :: rest ∧ s.rxCnt = 0 ∧ s.txCnt = 0 ∧
      t = { s with pending := rest, fault := true, cause := some c }

/-- R31, R206 to R208: with `FAULT = 1` nothing is consumed, the machine is halted, and only `Reset` goes on.  That the
halt is this fault outcome of a step is the model's choice (log 4), after the note of R207. -/
def Obligations.FaultIsLeftOnlyByReset : Prop :=
  ∀ s : State, s.fault = true →
    ((∀ rest, s.pending ≠ .reset :: rest) → s.txCnt = 0 →
      ∀ n : Nat, runSteps (n + 1) s = .fault (.contractViolation s.cause)) ∧
    (∀ rest, s.pending = .reset :: rest → step s = .next { s with toEngine := Engine.reset, pending := rest }) ∧
    (∀ t : State, step s = .next t → t.fault = false → ∃ rest, s.pending = .reset :: rest)

/-! ### Invariants and whole-machine rules -/

/-- The reset state meets the invariants (R50, R231; `Inv`'s eleventh item is log 9), and no context in it claims any
content. -/
def Obligations.ResetStateMeetsTheInvariants : Prop :=
  Inv State.reset.toEngine ∧ Genuine State.reset.toEngine

/-- R50: every step keeps the state invariants.  `Inv` holds R50's ten items and one more, needed for item 9 to be
kept (log 9). -/
def Obligations.EveryStepKeepsTheStateInvariants : Prop :=
  ∀ s t : State, Inv s.toEngine → step s = .next t → Inv t.toEngine

/-- Every step keeps the provenance of the contexts: a live context holds exactly the bytes of some message, or of
some key, absorbed from its start (R22, R50 item 6, R183, R186).  The padded key of a live HMAC context is
`keyBlockOf`, which hashes a key above 64 bytes by `messageDigest`'s reading of the whole-message hash (log 14). -/
def Obligations.EveryStepKeepsTheContextsGenuine : Prop :=
  ∀ s t : State, Genuine s.toEngine → step s = .next t → Genuine t.toEngine

/-- In a state that meets the invariants (with the model's eleventh, log 9) a step stops only where the engine has taken
a `ContractViolation` (R200, R207); no other stop of the model is reached.  The fault outcome is the model's choice
(log 4). -/
def Obligations.OnlyAContractViolationStopsTheMachine : Prop :=
  ∀ s : State, Inv s.toEngine →
    (∃ t : State, step s = .next t) ∨
    (s.fault = true ∧ step s = .fault (.contractViolation s.cause) ∧ ∀ rest, s.pending ≠ .reset :: rest)

/-- R215: the host has no path to `H`, `BUF`, `FILL`, `LEN`, `KEYBLK` and `KEYCNT` but the digest that FINAL queues.
Two states that differ only in them answer every event alike, but for a FINAL that is executed: one taken as a header
in HASH or HMAC.  A FINAL that raises BAD_MODE is among the events that are answered alike. -/
def Obligations.SecretsReachTheHostOnlyThroughFinal : Prop :=
  ∀ s t : State, sameButSecrets s t →
    (∀ w rest, s.pending = .inWord w :: rest → ready s.toEngine → s.mode = .hash ∨ s.mode = .hmac →
      decode w ≠ .ok .final) →
    (∃ s' t' : State, step s = .next s' ∧ step t = .next t' ∧ sameButSecrets s' t') ∨
    (∃ f : Fault, step s = .fault f ∧ step t = .fault f)

/-- R22: the eight words of a HashState are as before, or they are replaced together, and then only by (a) the
initialisation that an executed HINIT or KINIT makes, (b) a block dispatch: of the block that a payload byte completes
at fill count 63, or of the padded key that KDONE puts through the variant's IV, (c) the clear that HINIT and KINIT
make of `CTX[1]`, an executed FINAL of both contexts, and `Reset` of both. -/
def Obligations.HashStateIsNeverPartlyUpdated : Prop :=
  ∀ (s t : State) (c : CtxIndex), step s = .next t →
    (ctxOf t.toEngine c).h = (ctxOf s.toEngine c).h ∨
    (∃ (w : Word) (rest : List Event), s.pending = .inWord w :: rest ∧ ready s.toEngine ∧
      ((∃ (v : Variant) (var : BitVec 4), (decode w = .ok (.hinit var) ∨ decode w = .ok (.kinit var)) ∧
        ((var = 1 ∧ v = .sha224) ∨ (var = 2 ∧ v = .sha256)) ∧
        (ctxOf t.toEngine c).h = match c with | .zero => iv v | .one => zeroWords) ∨
      (∃ (v : Variant) (k0 : Block), decode w = .ok .kdone ∧ s.mode = .keying ∧ s.variant = some v ∧
        k0 = normalizedKey v s.toEngine ∧
        (ctxOf t.toEngine c).h =
          compress (iv v) (k0.map (· ^^^ match c with | .zero => 0x36 | .one => 0x5c))) ∨
      (∃ v : Variant, decode w = .ok .final ∧ (s.mode = .hash ∨ s.mode = .hmac) ∧ s.variant = some v ∧
        (ctxOf t.toEngine c).h = zeroWords))) ∨
    (∃ (w : Word) (rest : List Event) (pre post : List Byte) (b : Byte) (x : HashCtx),
      s.pending = .inWord w :: rest ∧ s.fault = false ∧ s.txCnt = 0 ∧ s.rxCnt ≠ 0 ∧ c = .zero ∧
      payloadBytes w s.rxCnt = pre ++ b :: post ∧ x = pre.foldl absorb s.ctx0 ∧ x.fill.val = 63 ∧
      (ctxOf t.toEngine c).h = compress (ctxOf s.toEngine c).h (putByte x.buf x.fill b)) ∨
    (∃ rest : List Event, s.pending = .reset :: rest ∧ (ctxOf t.toEngine c).h = zeroWords)

/-- R40 and R110: the outputs show the registers. -/
def Obligations.OutputsShowTheRegisters : Prop :=
  ∀ e : Engine,
    ((stFault e).toNat = 1 ↔ e.fault = true) ∧
    (stMode e).toNat = (match e.mode with | .idle => 0 | .hash => 1 | .keying => 2 | .hmac => 3) ∧
    (stVariant e).toNat = (match e.variant with | none => 0 | some .sha224 => 1 | some .sha256 => 2) ∧
    (stCause e).toNat = (match e.cause with
      | none => 0
      | some .illegalOpcode => 1
      | some .reservedField => 2
      | some .badVariant => 3
      | some .badMode => 4) ∧
    (outValid e = true ↔ 0 < e.txCnt.val) ∧
    (0 < e.txCnt.val → outData e = e.txq[e.txRd]) ∧
    (e.txCnt = 0 → outData e = 0)

/-! ### The Compression Core -/

/-- R121: `Ch` and `Maj`, bit by bit. -/
def Obligations.ChChoosesAndMajTakesTheMajority : Prop :=
  ∀ (x y z : Word),
    ch x y z = (x &&& y) ^^^ (~~~x &&& z) ∧ maj x y z = (x &&& y) ^^^ (x &&& z) ^^^ (y &&& z) ∧
    (∀ i : Fin 32, (ch x y z)[i] = if x[i] then y[i] else z[i]) ∧
    (∀ i : Fin 32, (maj x y z)[i] = decide (2 ≤ x[i].toNat + y[i].toNat + z[i].toNat)) ∧
    ch 0 y z = z ∧ ch 0xffffffff y z = y ∧ maj x x z = x

/-- R11, R122 and R123: the rotations and shifts, bit by bit, and the four sigma functions made of them. -/
def Obligations.SigmasRotateAndShift : Prop :=
  (∀ (x : Word) (n : Nat) (i : Fin 32), 0 < n → n < 32 →
    (rotr x n)[i] = x[(i.val + n) % 32]'(Nat.mod_lt _ (by decide))) ∧
  (∀ (x : Word) (n : Nat), (shr x n).toNat = x.toNat / 2 ^ n) ∧
  (∀ x : Word,
    bigSigma0 x = rotr x 2 ^^^ rotr x 13 ^^^ rotr x 22 ∧ bigSigma1 x = rotr x 6 ^^^ rotr x 11 ^^^ rotr x 25 ∧
    smallSigma0 x = rotr x 7 ^^^ rotr x 18 ^^^ shr x 3 ∧ smallSigma1 x = rotr x 17 ^^^ rotr x 19 ^^^ shr x 10) ∧
  bigSigma0 0 = 0 ∧ bigSigma1 0 = 0 ∧ smallSigma0 0 = 0 ∧ smallSigma1 0 = 0 ∧
  bigSigma0 0xffffffff = 0xffffffff ∧ bigSigma1 0xffffffff = 0xffffffff ∧
  smallSigma0 0xffffffff = 0x1fffffff ∧ smallSigma1 0xffffffff = 0x003fffff

/-- R124 and R125: the message schedule of a block. -/
def Obligations.ScheduleFollowsItsRecurrence : Prop :=
  ∀ b : Block, ∃ hlen : (schedule b).length = 64,
    (∀ t : Fin 16, (schedule b)[t.val]'(by omega) =
      be32 (b[4 * t.val]'(by omega)) (b[4 * t.val + 1]'(by omega)) (b[4 * t.val + 2]'(by omega))
        (b[4 * t.val + 3]'(by omega))) ∧
    (∀ (t : Nat) (_ : 16 ≤ t) (_ : t < 64), (schedule b)[t]'(by omega) =
      smallSigma1 ((schedule b)[t - 2]'(by omega)) + (schedule b)[t - 7]'(by omega) +
        smallSigma0 ((schedule b)[t - 15]'(by omega)) + (schedule b)[t - 16]'(by omega))

/-- R126: the 16-entry sliding window delivers the same schedule words. -/
def Obligations.SlidingWindowDeliversTheSchedule : Prop :=
  ∀ (b : Block) (t : Nat), t < 64 → windowAt (windowBefore b t) t = (schedule b).getD t 0

/-- R127 to R130: whatever the 64 rounds of the mixer give from the incoming state, the new state is its sum with
that. -/
def Obligations.CompressIsSixtyFourRoundsAndTheAdder : Prop :=
  ∀ (s : HashState) (b : Block) (v : Nat → Working),
    v 0 = { a := s[0], b := s[1], c := s[2], d := s[3], e := s[4], f := s[5], g := s[6], h := s[7] } →
    (∀ t, t < 64 → ∃ t1 t2 : Word,
      t1 = (v t).h + bigSigma1 (v t).e + ch (v t).e (v t).f (v t).g + kTable.getD t 0 + (schedule b).getD t 0 ∧
      t2 = bigSigma0 (v t).a + maj (v t).a (v t).b (v t).c ∧
      v (t + 1) =
        { a := t1 + t2, b := (v t).a, c := (v t).b, d := (v t).c,
          e := (v t).d + t1, f := (v t).e, g := (v t).f, h := (v t).g }) →
    compress s b = #v[s[0] + (v 64).a, s[1] + (v 64).b, s[2] + (v 64).c, s[3] + (v 64).d, s[4] + (v 64).e,
      s[5] + (v 64).f, s[6] + (v 64).g, s[7] + (v 64).h]

/-! ### The hash context -/

/-- R152: one byte appended; the 64th dispatches the block, empties the buffer and counts 512 bits, mod 2^64.  A padding
byte does the same without the counting. -/
def Obligations.AbsorbAppendsAndDispatches : Prop :=
  ∀ (x : HashCtx) (b : Byte),
    (∀ room : x.fill.val + 1 < 64,
      absorb x b = { x with buf := x.buf.set x.fill.val b x.fill.isLt, fill := ⟨x.fill.val + 1, room⟩ } ∧
      absorbPad x b = absorb x b) ∧
    (x.fill.val = 63 →
      absorb x b = { h := compress x.h (x.buf.set 63 b), buf := zeroBlock, fill := 0, len := x.len + 512 } ∧
      (absorb x b).len.toNat = (x.len.toNat + 512) % 2 ^ 64 ∧
      absorbPad x b = { absorb x b with len := x.len })

/-- R154: the total bit length of what has been absorbed since the context was initialised. -/
def Obligations.TotalLengthCountsTheBitsAbsorbed : Prop :=
  ∀ (v : Variant) (m : List Byte) (x : HashCtx), x = m.foldl absorb (ctxInit v) →
    totalBits x = x.len + BitVec.ofNat 64 (8 * x.fill.val) ∧
    totalBits x = BitVec.ofNat 64 (8 * m.length) ∧
    x.fill.val = m.length % 64 ∧
    x.len = BitVec.ofNat 64 (512 * (m.length / 64))

/-- R155: the padding and the one or two blocks it dispatches, for a context with `f` bytes in its buffer. -/
def Obligations.FinalizeDispatchesThePaddedTail : Prop :=
  ∀ (x : HashCtx) (d : List Byte) (l : Length),
    d = x.buf.toList.take x.fill.val → l = x.len + BitVec.ofNat 64 (8 * x.fill.val) →
    finalize x =
      { h :=
          if x.fill.val ≤ 55 then
            compress x.h (padBlock (d ++ 0x80 :: (List.replicate (55 - x.fill.val) 0 ++ bytes64 l)))
          else
            compress (compress x.h (padBlock (d ++ 0x80 :: List.replicate (63 - x.fill.val) 0)))
              (padBlock (List.replicate 56 0 ++ bytes64 l))
        buf := zeroBlock
        fill := 0
        len := x.len }

/-- R156: the padding state machine ends in DONE with the context that the padding rule gives. -/
def Obligations.PaddingMachineFinalizes : Prop :=
  ∀ (x : HashCtx) (l : Length) (n : Nat), 73 ≤ n →
    padMoves n { ctx := x, phase := .mark, total := l } =
      { ctx := finalize x, phase := .done, total := x.len + BitVec.ofNat 64 (8 * x.fill.val) }

/-- R157 and R65: the digest's bytes, and its length. -/
def Obligations.DigestIsTheLeadingWordsBigEndian : Prop :=
  ∀ (h : HashState),
    digestBytes h .sha256 = h.toList.flatMap bytes32 ∧ (digestBytes h .sha256).length = 32 ∧
    digestBytes h .sha224 = (h.toList.take 7).flatMap bytes32 ∧ (digestBytes h .sha224).length = 28 ∧
    (∀ (v : Variant) (i : Fin 8) (j : Fin 4), i.val < digestWords v →
      (digestBytes h v)[4 * i.val + j.val]? = some (h[i].extractLsb' (24 - 8 * j.val) 8)) ∧
    (∀ (v : Variant), digestOf h v = h.toList.take (match v with | .sha224 => 7 | .sha256 => 8))

/-! ### The key registers -/

/-- R182: one key byte, and what `n` key bytes leave in the key registers and in the running hash. -/
def Obligations.KeyRegistersAfterTheKeyBytes : Prop :=
  (∀ (e : Engine) (b : Byte), ∃ t : Engine, keyByte e b = t ∧
    t.keyCnt.val = (if e.keyCnt.val < 65 then e.keyCnt.val + 1 else e.keyCnt.val) ∧
    (∀ i : Fin 64, t.keyBlk[i] = if i.val = e.keyCnt.val then b else e.keyBlk[i]) ∧
    t = { e with ctx0 := absorb e.ctx0 b, keyBlk := t.keyBlk, keyCnt := t.keyCnt }) ∧
  (∀ (v : Variant) (e : Engine) (key : List Byte),
    ∃ t : Engine, key.foldl keyByte (startContext v .keying e) = t ∧
      t.keyCnt.val = min key.length 65 ∧
      (∀ i : Fin 64, t.keyBlk[i] = key.getD i.val 0) ∧
      t = { startContext v .keying e with
        ctx0 := key.foldl absorb (ctxInit v), keyBlk := t.keyBlk, keyCnt := t.keyCnt })

/-- R184: the key count and the normalized key by the length of the key.  In the row for 65 bytes and more the hash of
the key is `messageDigest`, the model's own reading of the hash of a whole message (log 14), for keys shorter than the
2^61 bytes of the standard's bound (R244, log 19). -/
def Obligations.NormalizedKeyByKeyLength : Prop :=
  ∀ (v : Variant) (e : Engine) (key : List Byte) (k0 : Block),
    k0 = normalizedKey v (key.foldl keyByte (startContext v .keying e)) →
    (key.foldl keyByte (startContext v .keying e)).keyCnt.val = (if key.length ≤ 64 then key.length else 65) ∧
    (key.length = 0 → k0 = Vector.replicate 64 0) ∧
    (key.length ≤ 64 → k0.toList = key ++ List.replicate (64 - key.length) 0) ∧
    (65 ≤ key.length → key.length < 2 ^ 61 →
      k0.toList = (messageDigest v key).flatMap bytes32 ++
        List.replicate (match v with | .sha224 => 36 | .sha256 => 32) 0)

/-- R247: KDONE leaves no key byte in the key block or in a buffer, and FINAL leaves nothing but the queued
words. -/
def Obligations.NoKeyResidueAfterKdoneAndFinal : Prop :=
  (∀ s t : State, exec .kdone s = .next t → t.fault = false →
    t.keyBlk = zeroBlock ∧ t.ctx0.buf = zeroBlock ∧ t.ctx1.buf = zeroBlock ∧ t.keyCnt = 0) ∧
  (∀ s t : State, exec .final s = .next t → t.fault = false →
    { t.toEngine with txq := zeroWords, txRd := 0, txCnt := 0 } =
      { Engine.reset with cause := s.cause, rxCnt := s.rxCnt })

/-! ### Byte order and lengths -/

/-- R10: the big-endian conversions; and R69, which the spec derives from R63 and R64: the 64-bit length at the end of a
block is read back as its words 14 and 15. -/
def Obligations.BytesAndWordsConvertBigEndian : Prop :=
  (∀ b0 b1 b2 b3 : Byte,
    (be32 b0 b1 b2 b3).toNat = b0.toNat * 2 ^ 24 + b1.toNat * 2 ^ 16 + b2.toNat * 2 ^ 8 + b3.toNat ∧
    bytes32 (be32 b0 b1 b2 b3) = [b0, b1, b2, b3]) ∧
  (∀ w : Word, bytes32 w = [w.extractLsb' 24 8, w.extractLsb' 16 8, w.extractLsb' 8 8, w.extractLsb' 0 8]) ∧
  (∀ (l : Length) (j : Fin 8), (bytes64 l)[j.val]? = some (l.extractLsb' (56 - 8 * j.val) 8)) ∧
  (∀ (l : Length) (d : List Byte), d.length = 56 →
    blockWord (padBlock (d ++ bytes64 l)) 14 = l.extractLsb' 32 32 ∧
    blockWord (padBlock (d ++ bytes64 l)) 15 = l.extractLsb' 0 32)

/-- R91, R92, R94: from the header of an accepted UPDATE or KEY, the next words on IN, whatever they are, are payload
until `RXCNT` is 0 again, which is after exactly `ceil(LEN / 4)` of them; any other header leaves no payload to come;
a command is at most 16385 words long. -/
def Obligations.PayloadEndsAfterItsWords : Prop :=
  (∀ (s : State) (i : Instr) (ws : List Word) (rest : List Event),
    ready s.toEngine →
    ((∃ len, i = .update len) ∧ (s.mode = .hash ∨ s.mode = .hmac)) ∨ ((∃ len, i = .key len) ∧ s.mode = .keying) →
    s.pending = presentAll (encode i :: ws) ++ rest → ws.length ≤ i.payloadWords →
    ∃ t : State, runSteps (1 + ws.length) s = .next t ∧
      t.rxCnt.toNat = i.payloadBytes - 4 * ws.length ∧
      (t.rxCnt = 0 ↔ ws.length = i.payloadWords) ∧
      t = { s with
        ctx0 := t.ctx0
        keyBlk := t.keyBlk
        keyCnt := t.keyCnt
        rxCnt := t.rxCnt
        pending := rest }) ∧
  (∀ (s t : State) (w : Word) (rest : List Event), ready s.toEngine → s.pending = .inWord w :: rest →
    step s = .next t → t.rxCnt ≠ 0 → decode w = .ok (.update t.rxCnt) ∨ decode w = .ok (.key t.rxCnt)) ∧
  (∀ len : BitVec 16, (Instr.update len).payloadWords = (len.toNat + 3) / 4 ∧
    (Instr.key len).payloadWords = (len.toNat + 3) / 4) ∧
  (∀ var, (Instr.hinit var).payloadWords = 0 ∧ (Instr.kinit var).payloadWords = 0) ∧
  Instr.final.payloadWords = 0 ∧ Instr.kdone.payloadWords = 0 ∧
  (∀ i : Instr, 1 + i.payloadWords ≤ 16385)
end

