-- ==== Sys2Proof/Laws/Bytes.lean ====
section
/-! SUPPORT. Bytes and words: the big-endian conversions are inverse to each other, and how many words and bytes they
give (00_scope.md R10, 20_memory.md R63 to R65). -/

namespace Sys2Proof.Machine

/-- `be32` as arithmetic (R10). -/
theorem be32_toNat (b0 b1 b2 b3 : Byte) :
    (be32 b0 b1 b2 b3).toNat = b0.toNat * 2 ^ 24 + b1.toNat * 2 ^ 16 + b2.toNat * 2 ^ 8 + b3.toNat := by
  simp only [be32, toNat_append_add]
  omega

/-- The bytes of a word put together from four bytes are those bytes (R10). -/
@[simp] theorem bytes32_be32 (b0 b1 b2 b3 : Byte) : bytes32 (be32 b0 b1 b2 b3) = [b0, b1, b2, b3] := by
  have h0 := b0.isLt; have h1 := b1.isLt; have h2 := b2.isLt; have h3 := b3.isLt
  simp only [bytes32, List.cons.injEq, and_true]
  refine ⟨?_, ?_, ?_, ?_⟩ <;>
    (apply BitVec.eq_of_toNat_eq; rw [toNat_slice, be32_toNat]; omega)

@[simp] theorem bytes32_length (w : Word) : (bytes32 w).length = 4 := rfl

/-- A digest has `n(v)` words (41_hash_context.md R157). -/
@[simp] theorem digestOf_length (h : HashState) (v : Variant) : (digestOf h v).length = digestWords v := by
  cases v <;> simp [digestOf, digestWords]

theorem flatMap_bytes32_length (ws : List Word) : (ws.flatMap bytes32).length = 4 * ws.length := by
  induction ws with
  | nil => rfl
  | cons w ws ih => rw [List.flatMap_cons, List.length_append, ih, bytes32_length, List.length_cons]; omega

/-- A digest has `4 * n(v)` bytes: 28 or 32 (R7, R157). -/
theorem digestBytes_length (h : HashState) (v : Variant) : (digestBytes h v).length = 4 * digestWords v := by
  rw [digestBytes, flatMap_bytes32_length, digestOf_length]

/-- A byte sequence packed into words takes `ceil(n / 4)` words (30_encoding.md R91). -/
theorem packWords_length (bs : List Byte) : (packWords bs).length = (bs.length + 3) / 4 := by
  induction bs using packWords.induct with
  | case1 => rfl
  | case2 => simp [packWords]
  | case3 => simp [packWords]
  | case4 => simp [packWords]
  | case5 b0 b1 b2 b3 rest ih => rw [packWords, List.length_cons, ih]; simp only [List.length_cons]; omega

end Sys2Proof.Machine
end

