-- ==== Sys2Proof/Laws/Context.lean ====
section
/-! SUPPORT. What absorbing a byte sequence does, said once for the two appends (`absorb`, which counts, and
`absorb_pad`, which does not): within a block the bytes are written after those already there, and the byte that fills
the block dispatches it.  From that: the state of a context after a whole message, the padding rule, and the agreement
of the streaming engine with the hash of a whole message (41_hash_context.md R152 to R157, R165). -/

namespace Sys2Proof.Machine

/-- The block with the bytes `bs` written from offset `f` on. -/
def writeList (buf : Block) (f : Nat) (bs : List Byte) : Block :=
  Vector.ofFn fun i : Fin 64 => if f ≤ i.val ∧ i.val < f + bs.length then bs.getD (i.val - f) 0 else buf[i]

/-- The append of a byte sequence where a dispatch turns the counter `len` into `count len`. -/
def pushAll (count : Length → Length) (x : HashCtx) (bs : List Byte) : HashCtx :=
  bs.foldl (fun y b => pushByte y b (count y.len)) x

theorem absorbAll_eq (x : HashCtx) (bs : List Byte) : absorbAll x bs = pushAll (· + 512) x bs := rfl

theorem finalize_eq (x : HashCtx) : finalize x = pushAll id x (padding x.fill (totalBits x)) := rfl

@[simp] theorem pushAll_nil (count : Length → Length) (x : HashCtx) : pushAll count x [] = x := rfl

theorem pushAll_cons (count : Length → Length) (x : HashCtx) (b : Byte) (bs : List Byte) :
    pushAll count x (b :: bs) = pushAll count (pushByte x b (count x.len)) bs := rfl

theorem pushAll_append (count : Length → Length) (x : HashCtx) (bs cs : List Byte) :
    pushAll count x (bs ++ cs) = pushAll count (pushAll count x bs) cs := List.foldl_append

theorem absorbAll_append (x : HashCtx) (bs cs : List Byte) :
    absorbAll x (bs ++ cs) = absorbAll (absorbAll x bs) cs := List.foldl_append

/-! ### One byte (R152) -/

theorem pushByte_room {x : HashCtx} (b : Byte) (len : Length) (room : x.fill.val + 1 < 64) :
    pushByte x b len = { x with buf := putByte x.buf x.fill b, fill := ⟨x.fill.val + 1, room⟩ } := by
  rw [pushByte, dif_pos room]

theorem pushByte_full {x : HashCtx} (b : Byte) (len : Length) (full : x.fill.val = 63) :
    pushByte x b len = dispatch x (putByte x.buf x.fill b) len := by
  rw [pushByte, dif_neg (by omega)]

/-! ### Writing a sequence -/

theorem writeList_get (buf : Block) (f : Nat) (bs : List Byte) (i : Nat) (hi : i < 64) :
    (writeList buf f bs)[i] = if f ≤ i ∧ i < f + bs.length then bs.getD (i - f) 0 else buf[i] := by
  simp [writeList]

@[simp] theorem writeList_nil (buf : Block) (f : Nat) : writeList buf f [] = buf := by
  ext i hi
  rw [writeList_get, if_neg (by simp)]

theorem writeList_cons (buf : Block) (f : Fin 64) (b : Byte) (bs : List Byte) :
    writeList (putByte buf f b) (f.val + 1) bs = writeList buf f.val (b :: bs) := by
  ext1 i hi
  rw [writeList_get, writeList_get]
  by_cases h1 : f.val + 1 ≤ i ∧ i < f.val + 1 + bs.length
  · rw [if_pos h1, if_pos (by simp only [List.length_cons]; omega)]
    obtain ⟨d, hd⟩ : ∃ d, i - f.val = d + 1 := ⟨i - f.val - 1, by omega⟩
    rw [hd, show i - (f.val + 1) = d by omega, List.getD_cons_succ]
  · rw [if_neg h1]
    by_cases h2 : i = f.val
    · subst h2
      rw [if_pos (by simp), Nat.sub_self]
      simp [putByte]
    · rw [if_neg (by simp only [List.length_cons]; omega)]
      exact Vector.getElem_set_ne _ _ (fun h => h2 h.symm)

theorem padBlock_get (bs : List Byte) (i : Nat) (hi : i < 64) : (padBlock bs)[i] = bs.getD i 0 := by
  simp [padBlock]

/-- Bytes that fill the block up from offset `f`: the result is the bytes below `f` followed by them. -/
theorem writeList_full (buf : Block) (f : Nat) (bs : List Byte) (h : f + bs.length = 64) :
    writeList buf f bs = padBlock (buf.toList.take f ++ bs) := by
  have hl : (buf.toList.take f).length = f := by simp; omega
  ext1 i hi
  rw [writeList_get, padBlock_get]
  by_cases h1 : f ≤ i
  · rw [if_pos ⟨h1, by omega⟩, List.getD_append_right _ _ _ _ (by omega), hl]
  · rw [if_neg (by omega), List.getD_append _ _ _ _ (by omega)]
    have : i < buf.toList.length := by simpa using hi
    rw [List.getD_eq_getElem _ _ (by omega), List.getElem_take]
    simp

/-- Writing into an empty buffer pads with zeros. -/
theorem writeList_zeroBlock (bs : List Byte) : writeList zeroBlock 0 bs = padBlock bs := by
  ext1 i hi
  rw [writeList_get, padBlock_get]
  by_cases h1 : i < bs.length
  · rw [if_pos ⟨Nat.zero_le _, by omega⟩, Nat.sub_zero]
  · rw [if_neg (by omega), List.getD_eq_default _ _ (by omega)]
    simp [zeroBlock]

/-! ### A sequence within a block, and a sequence that fills it -/

/-- Bytes that leave the block unfilled are only written and counted in `FILL`. -/
theorem pushAll_room (count : Length → Length) (x : HashCtx) (bs : List Byte) (h : x.fill.val + bs.length < 64) :
    pushAll count x bs =
      { x with buf := writeList x.buf x.fill.val bs, fill := ⟨x.fill.val + bs.length, h⟩ } := by
  induction bs generalizing x with
  | nil => simp
  | cons b bs ih =>
    have room : x.fill.val + 1 < 64 := by simp only [List.length_cons] at h; omega
    rw [pushAll_cons, pushByte_room b _ room, ih _ (by simp only [List.length_cons] at h ⊢; omega)]
    simp only [writeList_cons, List.length_cons, HashCtx.mk.injEq, Fin.mk.injEq, true_and, and_true]
    omega

/-- Bytes that fill the block are dispatched with those already there (R152). -/
theorem pushAll_full (count : Length → Length) (x : HashCtx) (bs : List Byte) (h : x.fill.val + bs.length = 64) :
    pushAll count x bs =
      dispatch x (padBlock (x.buf.toList.take x.fill.val ++ bs)) (count x.len) := by
  have hpos : bs ≠ [] := by rintro rfl; have := x.fill.isLt; simp at h; omega
  obtain ⟨init, b, rfl⟩ : ∃ init b, bs = init ++ [b] := ⟨_, _, (List.dropLast_append_getLast hpos).symm⟩
  simp only [List.length_append, List.length_singleton] at h
  have room : x.fill.val + init.length < 64 := by omega
  have hput : ∀ (z : Block) (k : Fin 64) (i : Nat) (hi : i < 64),
      (putByte z k b)[i] = if k.val = i then b else z[i] := by
    intro z k i hi; simp [putByte, Vector.getElem_set]
  have hblock : putByte (writeList x.buf x.fill.val init) ⟨x.fill.val + init.length, room⟩ b =
      padBlock (x.buf.toList.take x.fill.val ++ (init ++ [b])) := by
    rw [← writeList_full _ _ _ (by simp only [List.length_append, List.length_singleton]; omega)]
    ext1 i hi
    rw [hput, writeList_get, writeList_get]
    by_cases h1 : x.fill.val + init.length = i
    · subst h1
      rw [if_pos rfl, if_pos (by simp), List.getD_append_right _ _ _ _ (by omega)]
      simp
    · rw [if_neg h1]
      by_cases h2 : x.fill.val ≤ i ∧ i < x.fill.val + init.length
      · rw [if_pos h2, if_pos (by simp only [List.length_append, List.length_singleton]; omega),
          List.getD_append _ _ _ _ (by omega)]
      · rw [if_neg h2, if_neg (by simp only [List.length_append, List.length_singleton]; omega)]
  rw [pushAll_append, pushAll_room count x init room, pushAll_cons, pushAll_nil,
    pushByte_full _ _ (show x.fill.val + init.length = 63 by omega), hblock]
  simp only [dispatch]

/-- A whole block absorbed by an empty buffer. -/
theorem pushAll_block (count : Length → Length) (x : HashCtx) (bs : List Byte) (hf : x.fill = 0)
    (h : bs.length = 64) : pushAll count x bs = dispatch x (padBlock bs) (count x.len) := by
  have := pushAll_full count x bs (by rw [hf]; simpa using h)
  simpa [hf] using this

/-- What a sequence of at most a block's length does to the HashState (10_state.md R22, R152): nothing, or it is
compressed once, with the block that the byte arriving at fill count 63 completes. -/
theorem pushAll_h (count : Length → Length) (x : HashCtx) (bs : List Byte) (h : bs.length ≤ 64) :
    (pushAll count x bs).h = x.h ∨
    ∃ pre b post, bs = pre ++ b :: post ∧ (pushAll count x pre).fill.val = 63 ∧
      (pushAll count x bs).h =
        compress x.h (putByte (pushAll count x pre).buf (pushAll count x pre).fill b) := by
  by_cases room : x.fill.val + bs.length < 64
  · exact .inl (by rw [pushAll_room count x bs room])
  · right
    have hf := x.fill.isLt
    have hk : 63 - x.fill.val < bs.length := by omega
    have hpre : x.fill.val + (bs.take (63 - x.fill.val)).length < 64 := by rw [List.length_take]; omega
    have hfill : (pushAll count x (bs.take (63 - x.fill.val))).fill.val = 63 := by
      rw [pushAll_room count x _ hpre]
      simp only [List.length_take]
      omega
    refine ⟨bs.take (63 - x.fill.val), bs[63 - x.fill.val], bs.drop (63 - x.fill.val + 1), ?_, hfill, ?_⟩
    · rw [← List.drop_eq_getElem_cons hk, List.take_append_drop]
    · conv_lhs => rw [← List.take_append_drop (63 - x.fill.val) bs, List.drop_eq_getElem_cons hk]
      rw [pushAll_append, pushAll_cons, pushByte_full _ _ hfill, pushAll_room]
      · show compress _ _ = _
        rw [show (pushAll count x (bs.take (63 - x.fill.val))).h = x.h by rw [pushAll_room count x _ hpre]]
      · show 0 + _ < 64
        rw [List.length_drop]
        omega

/-! ### A whole message from an empty buffer -/

theorem dispatch_iterate (count : Length → Length) (q : Nat) (x : HashCtx) (bs : List Byte) (hf : x.fill = 0)
    (hb : x.buf = zeroBlock) (hq : 64 * q ≤ bs.length) :
    pushAll count x (bs.take (64 * q)) =
      { h := (blocksOf q bs).foldl compress x.h, buf := zeroBlock, fill := 0, len := count^[q] x.len } := by
  induction q generalizing x bs with
  | zero => obtain ⟨h, buf, fill, len⟩ := x; simp_all [blocksOf]
  | succ q ih =>
    have split : bs.take (64 * (q + 1)) = bs.take 64 ++ (bs.drop 64).take (64 * q) := by
      rw [show 64 * (q + 1) = 64 + 64 * q by omega, List.take_add]
    rw [split, pushAll_append, pushAll_block count x _ hf (by rw [List.length_take]; omega),
      ih _ _ rfl rfl (by rw [List.length_drop]; omega)]
    rfl

/-- The context after a byte sequence absorbed from an empty buffer: the full blocks are compressed, the rest is in
the buffer (R152). -/
theorem pushAll_message (count : Length → Length) (x : HashCtx) (bs : List Byte) (hf : x.fill = 0)
    (hb : x.buf = zeroBlock) :
    pushAll count x bs =
      { h := (blocksOf (bs.length / 64) bs).foldl compress x.h
        buf := padBlock (bs.drop (64 * (bs.length / 64)))
        fill := ⟨bs.length % 64, Nat.mod_lt _ (by decide)⟩
        len := count^[bs.length / 64] x.len } := by
  have hl : (bs.drop (64 * (bs.length / 64))).length = bs.length % 64 := by rw [List.length_drop]; omega
  have hlt : (bs.drop (64 * (bs.length / 64))).length < 64 := by omega
  conv_lhs => rw [← List.take_append_drop (64 * (bs.length / 64)) bs]
  rw [pushAll_append, dispatch_iterate count _ x bs hf hb (by omega),
    pushAll_room _ _ _ (by simpa using hlt)]
  simp only [Fin.val_zero, HashCtx.mk.injEq, and_true, true_and, Fin.mk.injEq, Nat.zero_add]
  exact ⟨writeList_zeroBlock _, hl⟩

/-- The HashState, the buffer and the fill count do not depend on how a dispatch counts (R155). -/
theorem pushAll_count_irrelevant (count count' : Length → Length) (x y : HashCtx) (bs : List Byte)
    (hh : x.h = y.h) (hb : x.buf = y.buf) (hf : x.fill = y.fill) :
    (pushAll count x bs).h = (pushAll count' y bs).h ∧ (pushAll count x bs).buf = (pushAll count' y bs).buf ∧
      (pushAll count x bs).fill = (pushAll count' y bs).fill := by
  induction bs generalizing x y with
  | nil => exact ⟨hh, hb, hf⟩
  | cons b bs ih =>
    rw [pushAll_cons, pushAll_cons]
    apply ih
    all_goals
      by_cases room : x.fill.val + 1 < 64
      · rw [pushByte_room b _ room, pushByte_room b _ (by rw [← hf]; exact room)]
        simp [hh, hb, hf]
      · rw [pushByte_full b _ (by omega), pushByte_full b _ (by rw [← hf]; omega)]
        simp [dispatch, hh, hb, hf]

/-! ### The counter -/

theorem count512_iterate (q : Nat) (len : Length) : (· + (512 : Length))^[q] len = len + BitVec.ofNat 64 (512 * q) := by
  induction q generalizing len with
  | zero => simp
  | succ q ih =>
    rw [Function.iterate_succ_apply, ih]
    apply BitVec.eq_of_toNat_eq
    have h512 : (512 : Length).toNat = 512 := rfl
    simp only [BitVec.toNat_add, BitVec.toNat_ofNat, h512]
    omega

/-- The context of a message (R150, R152, R154): what `CTX[c]` holds after `ctx_init` and the message's bytes. -/
theorem absorbAll_init (v : Variant) (m : List Byte) :
    absorbAll (ctxInit v) m =
      { h := (blocksOf (m.length / 64) m).foldl compress (iv v)
        buf := padBlock (m.drop (64 * (m.length / 64)))
        fill := ⟨m.length % 64, Nat.mod_lt _ (by decide)⟩
        len := BitVec.ofNat 64 (512 * (m.length / 64)) } := by
  rw [absorbAll_eq, pushAll_message _ _ _ rfl rfl, count512_iterate]
  simp [ctxInit]

/-- The total bit length of a message's context (R154). -/
theorem totalBits_absorbAll (v : Variant) (m : List Byte) :
    totalBits (absorbAll (ctxInit v) m) = BitVec.ofNat 64 (8 * m.length) := by
  rw [absorbAll_init, totalBits]
  apply BitVec.eq_of_toNat_eq
  simp only [BitVec.toNat_add, BitVec.toNat_ofNat]
  omega

/-! ### Finalizing a message (R155, R165) -/

theorem bytes64_length (l : Length) : (bytes64 l).length = 8 := rfl

theorem padding_length (f : Fin 64) (l : Length) : (padding f l).length = 9 + padZeros f := by
  simp [padding, bytes64_length]; omega

theorem pushAll_id_len (x : HashCtx) (bs : List Byte) : (pushAll id x bs).len = x.len := by
  induction bs generalizing x with
  | nil => rfl
  | cons b bs ih =>
    rw [pushAll_cons, ih]
    by_cases room : x.fill.val + 1 < 64
    · rw [pushByte_room b _ room]
    · rw [pushByte_full b _ (by omega)]; rfl

/-- Finalizing the context of a message gives the HashState of the whole message, padded at once (R165). -/
theorem finalize_absorbAll (v : Variant) (m : List Byte) :
    (finalize (absorbAll (ctxInit v) m)).h = messageState v m := by
  have hpad : padding (absorbAll (ctxInit v) m).fill (totalBits (absorbAll (ctxInit v) m)) =
      0x80 :: (List.replicate ((55 + 64 - m.length % 64) % 64) 0 ++ bytes64 (BitVec.ofNat 64 (8 * m.length))) := by
    rw [totalBits_absorbAll, absorbAll_init]; rfl
  have key := pushAll_message id (ctxInit v) (paddedMessage m) rfl rfl
  rw [finalize_eq, hpad, absorbAll_eq]
  rw [paddedMessage, pushAll_append] at key
  obtain ⟨hh, hb, hf⟩ := pushAll_count_irrelevant (· + 512) id (ctxInit v) (ctxInit v) m rfl rfl rfl
  have := (pushAll_count_irrelevant id id _ _
    (0x80 :: (List.replicate ((55 + 64 - m.length % 64) % 64) 0 ++ bytes64 (BitVec.ofNat 64 (8 * m.length))))
    hh hb hf).1
  rw [this, key]
  rfl

end Sys2Proof.Machine
end

