-- ==== Sys2Proof/Laws/Decode.lean ====
section
/-! SUPPORT. The fields of a header word that is put together from its fields, and what such a word decodes to. -/

namespace Sys2Proof

/-- A header word as arithmetic on its fields (R90). -/
theorem headerWord_toNat (opc var : BitVec 4) (rsv : BitVec 8) (len : BitVec 16) :
    (headerWord opc var rsv len).toNat =
      opc.toNat * 2 ^ 28 + var.toNat * 2 ^ 24 + rsv.toNat * 2 ^ 16 + len.toNat := by
  simp only [headerWord, toNat_append_add]
  omega

@[simp] theorem headerOpc_headerWord (opc var : BitVec 4) (rsv : BitVec 8) (len : BitVec 16) :
    headerOpc (headerWord opc var rsv len) = opc := by
  apply BitVec.eq_of_toNat_eq
  rw [headerOpc, toNat_slice, headerWord_toNat]
  have := opc.isLt; have := var.isLt; have := rsv.isLt; have := len.isLt
  omega

@[simp] theorem headerVar_headerWord (opc var : BitVec 4) (rsv : BitVec 8) (len : BitVec 16) :
    headerVar (headerWord opc var rsv len) = var := by
  apply BitVec.eq_of_toNat_eq
  rw [headerVar, toNat_slice, headerWord_toNat]
  have := opc.isLt; have := var.isLt; have := rsv.isLt; have := len.isLt
  omega

@[simp] theorem headerRsv_headerWord (opc var : BitVec 4) (rsv : BitVec 8) (len : BitVec 16) :
    headerRsv (headerWord opc var rsv len) = rsv := by
  apply BitVec.eq_of_toNat_eq
  rw [headerRsv, toNat_slice, headerWord_toNat]
  have := opc.isLt; have := var.isLt; have := rsv.isLt; have := len.isLt
  omega

@[simp] theorem headerLen_headerWord (opc var : BitVec 4) (rsv : BitVec 8) (len : BitVec 16) :
    headerLen (headerWord opc var rsv len) = len := by
  apply BitVec.eq_of_toNat_eq
  rw [headerLen, toNat_slice, headerWord_toNat]
  have := opc.isLt; have := var.isLt; have := rsv.isLt; have := len.isLt
  omega

/-- A word is put together from its four fields (R90). -/
theorem headerWord_fields (w : Word) :
    headerWord (headerOpc w) (headerVar w) (headerRsv w) (headerLen w) = w := by
  apply BitVec.eq_of_toNat_eq
  simp only [headerWord_toNat, headerOpc, headerVar, headerRsv, headerLen, toNat_slice]
  have := w.isLt
  omega

/-- Two header words are equal iff their fields are (R90). -/
theorem headerWord_inj {o v o' v' : BitVec 4} {r r' : BitVec 8} {l l' : BitVec 16} :
    headerWord o v r l = headerWord o' v' r' l' ↔ o = o' ∧ v = v' ∧ r = r' ∧ l = l' := by
  constructor
  · intro h
    exact ⟨by simpa using congrArg headerOpc h, by simpa using congrArg headerVar h,
      by simpa using congrArg headerRsv h, by simpa using congrArg headerLen h⟩
  · rintro ⟨rfl, rfl, rfl, rfl⟩; rfl

/-- A mask acts on each field (R95). -/
theorem and_headerWord (w : Word) (o v : BitVec 4) (r : BitVec 8) (l : BitVec 16) :
    w &&& headerWord o v r l =
      headerWord (headerOpc w &&& o) (headerVar w &&& v) (headerRsv w &&& r) (headerLen w &&& l) := by
  have slot : ∀ (a b : BitVec 16) (c d : BitVec 16), ((a ++ c : Word) &&& (b ++ d : Word)) = (a &&& b) ++ (c &&& d) :=
    fun _ _ _ _ => BitVec.and_append
  have high : ∀ (a b c d : BitVec 4) (e f : BitVec 8), ((a ++ c ++ e : BitVec 16) &&& (b ++ d ++ f : BitVec 16)) =
      (a &&& b) ++ (c &&& d) ++ (e &&& f) := fun a b c d e f =>
    (BitVec.and_append (x₁ := a ++ c) (x₂ := b ++ d)).trans
      (congrArg (· ++ (e &&& f)) (BitVec.and_append (x₁ := a) (x₂ := b) (y₁ := c) (y₂ := d)))
  conv_lhs => rw [← headerWord_fields w]
  unfold headerWord
  exact (slot _ _ _ _).trans (congrArg (· ++ (headerLen w &&& l)) (high _ _ _ _ _ _))

/-- The match and mask test of a row of the opcode map, by fields (R95). -/
theorem mask_test (w : Word) (o v o' v' : BitVec 4) (r r' : BitVec 8) (l l' : BitVec 16) :
    w &&& headerWord o v r l = headerWord o' v' r' l' ↔
      headerOpc w &&& o = o' ∧ headerVar w &&& v = v' ∧ headerRsv w &&& r = r' ∧ headerLen w &&& l = l' := by
  rw [and_headerWord, headerWord_inj]

@[simp] theorem ofCode_code (op : Opcode) : Opcode.ofCode op.code = some op := by cases op <;> rfl

/-- An opcode code stands for at most the opcode it is the code of. -/
theorem code_of_ofCode {c : BitVec 4} {op : Opcode} (h : Opcode.ofCode c = some op) : op.code = c := by
  revert c op; decide

/-- What a word decodes to when it decodes to a command: the four fields say it all (R93 steps 1 to 4). -/
theorem decode_eq_ok_iff (w : Word) (i : Instr) :
    decode w = .ok i ↔ headerOpc w = i.opcode.code ∧ headerVar w = i.varField ∧ headerRsv w = 0 ∧
      headerLen w = i.lenField := by
  constructor
  · intro h
    unfold decode at h
    split at h
    · cases h
    · rename_i op hop
      have hc := code_of_ofCode hop
      split at h
      · cases h
      · rename_i hr
        split at h
        · cases h
        · rename_i hv
          split at h
          · cases h
          · rename_i hl
            cases h
            cases op <;> simp_all [Opcode.instr, Instr.opcode, Instr.varField, Instr.lenField, Opcode.usesVar,
              Opcode.usesLen]
  · rintro ⟨ho, hv, hr, hl⟩
    unfold decode
    rw [ho, hv, hr, hl, ofCode_code]
    cases i <;> simp [Instr.opcode, Instr.varField, Instr.lenField, Opcode.usesVar, Opcode.usesLen, Opcode.instr]

/-- The reserved-field rejection, by the fields (R93 steps 2 to 4). -/
theorem decode_reserved {w : Word} {op : Opcode} (ho : headerOpc w = op.code)
    (h : headerRsv w ≠ 0 ∨ (op.usesVar = false ∧ headerVar w ≠ 0) ∨ (op.usesLen = false ∧ headerLen w ≠ 0)) :
    decode w = .error .reservedField := by
  unfold decode
  rw [ho, ofCode_code]
  dsimp only
  split_ifs with hr hv hl
  · rfl
  · rfl
  · rfl
  · exact absurd h (by tauto)

/-- The illegal-opcode rejection (R93 step 1). -/
theorem decode_illegal {w : Word} (ho : Opcode.ofCode (headerOpc w) = none) :
    decode w = .error .illegalOpcode := by
  unfold decode
  rw [ho]

/-- The header word of a command with its operands (R90, R95). -/
theorem decode_headerWord (i : Instr) :
    decode (headerWord i.opcode.code i.varField 0 i.lenField) = .ok i := by
  simp [decode_eq_ok_iff]

end Sys2Proof
end

