-- ==== Sys2Proof/Laws/State.lean ====
section
/-! SUPPORT. What each named update of the engine does to each register, one lemma a register, so that no later proof
unfolds an update. -/

namespace Sys2Proof.Machine

/-! ### Trap entry (R206) -/

@[simp] theorem trapEntry_ctx0 (e : Engine) (c : Cause) : (trapEntry e c).ctx0 = e.ctx0 := rfl
@[simp] theorem trapEntry_ctx1 (e : Engine) (c : Cause) : (trapEntry e c).ctx1 = e.ctx1 := rfl
@[simp] theorem trapEntry_variant (e : Engine) (c : Cause) : (trapEntry e c).variant = e.variant := rfl
@[simp] theorem trapEntry_mode (e : Engine) (c : Cause) : (trapEntry e c).mode = e.mode := rfl
@[simp] theorem trapEntry_fault (e : Engine) (c : Cause) : (trapEntry e c).fault = true := rfl
@[simp] theorem trapEntry_cause (e : Engine) (c : Cause) : (trapEntry e c).cause = some c := rfl
@[simp] theorem trapEntry_keyBlk (e : Engine) (c : Cause) : (trapEntry e c).keyBlk = e.keyBlk := rfl
@[simp] theorem trapEntry_keyCnt (e : Engine) (c : Cause) : (trapEntry e c).keyCnt = e.keyCnt := rfl
@[simp] theorem trapEntry_rxCnt (e : Engine) (c : Cause) : (trapEntry e c).rxCnt = e.rxCnt := rfl
@[simp] theorem trapEntry_txq (e : Engine) (c : Cause) : (trapEntry e c).txq = e.txq := rfl
@[simp] theorem trapEntry_txRd (e : Engine) (c : Cause) : (trapEntry e c).txRd = e.txRd := rfl
@[simp] theorem trapEntry_txCnt (e : Engine) (c : Cause) : (trapEntry e c).txCnt = e.txCnt := rfl

/-! ### HINIT and KINIT (R160, R180) -/

@[simp] theorem startContext_ctx0 (v : Variant) (m : Mode) (e : Engine) : (startContext v m e).ctx0 = ctxInit v := rfl
@[simp] theorem startContext_ctx1 (v : Variant) (m : Mode) (e : Engine) : (startContext v m e).ctx1 = ctxClear := rfl
@[simp] theorem startContext_variant (v : Variant) (m : Mode) (e : Engine) :
    (startContext v m e).variant = some v := rfl
@[simp] theorem startContext_mode (v : Variant) (m : Mode) (e : Engine) : (startContext v m e).mode = m := rfl
@[simp] theorem startContext_fault (v : Variant) (m : Mode) (e : Engine) : (startContext v m e).fault = e.fault := rfl
@[simp] theorem startContext_cause (v : Variant) (m : Mode) (e : Engine) : (startContext v m e).cause = e.cause := rfl
@[simp] theorem startContext_keyBlk (v : Variant) (m : Mode) (e : Engine) :
    (startContext v m e).keyBlk = zeroBlock := rfl
@[simp] theorem startContext_keyCnt (v : Variant) (m : Mode) (e : Engine) : (startContext v m e).keyCnt = 0 := rfl
@[simp] theorem startContext_rxCnt (v : Variant) (m : Mode) (e : Engine) : (startContext v m e).rxCnt = e.rxCnt := rfl
@[simp] theorem startContext_txq (v : Variant) (m : Mode) (e : Engine) : (startContext v m e).txq = e.txq := rfl
@[simp] theorem startContext_txRd (v : Variant) (m : Mode) (e : Engine) : (startContext v m e).txRd = e.txRd := rfl
@[simp] theorem startContext_txCnt (v : Variant) (m : Mode) (e : Engine) : (startContext v m e).txCnt = e.txCnt := rfl

/-! ### The end of FINAL (R162, R185) -/

@[simp] theorem consumeContext_ctx0 (e : Engine) : (consumeContext e).ctx0 = ctxClear := rfl
@[simp] theorem consumeContext_ctx1 (e : Engine) : (consumeContext e).ctx1 = ctxClear := rfl
@[simp] theorem consumeContext_variant (e : Engine) : (consumeContext e).variant = none := rfl
@[simp] theorem consumeContext_mode (e : Engine) : (consumeContext e).mode = .idle := rfl
@[simp] theorem consumeContext_fault (e : Engine) : (consumeContext e).fault = e.fault := rfl
@[simp] theorem consumeContext_cause (e : Engine) : (consumeContext e).cause = e.cause := rfl
@[simp] theorem consumeContext_keyBlk (e : Engine) : (consumeContext e).keyBlk = zeroBlock := rfl
@[simp] theorem consumeContext_keyCnt (e : Engine) : (consumeContext e).keyCnt = 0 := rfl
@[simp] theorem consumeContext_rxCnt (e : Engine) : (consumeContext e).rxCnt = e.rxCnt := rfl
@[simp] theorem consumeContext_txq (e : Engine) : (consumeContext e).txq = e.txq := rfl
@[simp] theorem consumeContext_txRd (e : Engine) : (consumeContext e).txRd = e.txRd := rfl
@[simp] theorem consumeContext_txCnt (e : Engine) : (consumeContext e).txCnt = e.txCnt := rfl

/-! ### FINAL's output queue (R162, R185) -/

@[simp] theorem loadQueue_ctx0 (v : Variant) (h : HashState) (e : Engine) : (loadQueue v h e).ctx0 = e.ctx0 := rfl
@[simp] theorem loadQueue_ctx1 (v : Variant) (h : HashState) (e : Engine) : (loadQueue v h e).ctx1 = e.ctx1 := rfl
@[simp] theorem loadQueue_variant (v : Variant) (h : HashState) (e : Engine) :
    (loadQueue v h e).variant = e.variant := rfl
@[simp] theorem loadQueue_mode (v : Variant) (h : HashState) (e : Engine) : (loadQueue v h e).mode = e.mode := rfl
@[simp] theorem loadQueue_fault (v : Variant) (h : HashState) (e : Engine) : (loadQueue v h e).fault = e.fault := rfl
@[simp] theorem loadQueue_cause (v : Variant) (h : HashState) (e : Engine) : (loadQueue v h e).cause = e.cause := rfl
@[simp] theorem loadQueue_keyBlk (v : Variant) (h : HashState) (e : Engine) :
    (loadQueue v h e).keyBlk = e.keyBlk := rfl
@[simp] theorem loadQueue_keyCnt (v : Variant) (h : HashState) (e : Engine) :
    (loadQueue v h e).keyCnt = e.keyCnt := rfl
@[simp] theorem loadQueue_rxCnt (v : Variant) (h : HashState) (e : Engine) : (loadQueue v h e).rxCnt = e.rxCnt := rfl
@[simp] theorem loadQueue_txq (v : Variant) (h : HashState) (e : Engine) :
    (loadQueue v h e).txq = queueWords v h e.txq := rfl
@[simp] theorem loadQueue_txRd (v : Variant) (h : HashState) (e : Engine) : (loadQueue v h e).txRd = 0 := rfl
@[simp] theorem loadQueue_txCnt (v : Variant) (h : HashState) (e : Engine) :
    (loadQueue v h e).txCnt = queueCount v := rfl

/-! ### `OutWord` (R108) -/

@[simp] theorem popQueue_ctx0 (e : Engine) : (popQueue e).ctx0 = e.ctx0 := rfl
@[simp] theorem popQueue_ctx1 (e : Engine) : (popQueue e).ctx1 = e.ctx1 := rfl
@[simp] theorem popQueue_variant (e : Engine) : (popQueue e).variant = e.variant := rfl
@[simp] theorem popQueue_mode (e : Engine) : (popQueue e).mode = e.mode := rfl
@[simp] theorem popQueue_fault (e : Engine) : (popQueue e).fault = e.fault := rfl
@[simp] theorem popQueue_cause (e : Engine) : (popQueue e).cause = e.cause := rfl
@[simp] theorem popQueue_keyBlk (e : Engine) : (popQueue e).keyBlk = e.keyBlk := rfl
@[simp] theorem popQueue_keyCnt (e : Engine) : (popQueue e).keyCnt = e.keyCnt := rfl
@[simp] theorem popQueue_rxCnt (e : Engine) : (popQueue e).rxCnt = e.rxCnt := rfl
@[simp] theorem popQueue_txq (e : Engine) : (popQueue e).txq = e.txq.set e.txRd.val 0 e.txRd.isLt := rfl
@[simp] theorem popQueue_txRd (e : Engine) :
    (popQueue e).txRd = (if e.txCnt.val - 1 = 0 then 0 else e.txRd + 1) := rfl
@[simp] theorem popQueue_txCnt (e : Engine) : (popQueue e).txCnt = ⟨e.txCnt.val - 1, by omega⟩ := rfl

/-! ### A key byte (R182) -/

@[simp] theorem keyByte_ctx0 (e : Engine) (b : Byte) : (keyByte e b).ctx0 = absorb e.ctx0 b := rfl
@[simp] theorem keyByte_ctx1 (e : Engine) (b : Byte) : (keyByte e b).ctx1 = e.ctx1 := rfl
@[simp] theorem keyByte_variant (e : Engine) (b : Byte) : (keyByte e b).variant = e.variant := rfl
@[simp] theorem keyByte_mode (e : Engine) (b : Byte) : (keyByte e b).mode = e.mode := rfl
@[simp] theorem keyByte_fault (e : Engine) (b : Byte) : (keyByte e b).fault = e.fault := rfl
@[simp] theorem keyByte_cause (e : Engine) (b : Byte) : (keyByte e b).cause = e.cause := rfl
@[simp] theorem keyByte_keyBlk (e : Engine) (b : Byte) :
    (keyByte e b).keyBlk = (if h : e.keyCnt.val < 64 then putByte e.keyBlk ⟨e.keyCnt.val, h⟩ b else e.keyBlk) := rfl
@[simp] theorem keyByte_keyCnt (e : Engine) (b : Byte) :
    (keyByte e b).keyCnt = (if h : e.keyCnt.val < 65 then ⟨e.keyCnt.val + 1, by omega⟩ else e.keyCnt) := rfl
@[simp] theorem keyByte_rxCnt (e : Engine) (b : Byte) : (keyByte e b).rxCnt = e.rxCnt := rfl
@[simp] theorem keyByte_txq (e : Engine) (b : Byte) : (keyByte e b).txq = e.txq := rfl
@[simp] theorem keyByte_txRd (e : Engine) (b : Byte) : (keyByte e b).txRd = e.txRd := rfl
@[simp] theorem keyByte_txCnt (e : Engine) (b : Byte) : (keyByte e b).txCnt = e.txCnt := rfl

/-! ### A message byte (R94) -/

@[simp] theorem messageByte_ctx0 (e : Engine) (b : Byte) : (messageByte e b).ctx0 = absorb e.ctx0 b := rfl
@[simp] theorem messageByte_ctx1 (e : Engine) (b : Byte) : (messageByte e b).ctx1 = e.ctx1 := rfl
@[simp] theorem messageByte_variant (e : Engine) (b : Byte) : (messageByte e b).variant = e.variant := rfl
@[simp] theorem messageByte_mode (e : Engine) (b : Byte) : (messageByte e b).mode = e.mode := rfl
@[simp] theorem messageByte_fault (e : Engine) (b : Byte) : (messageByte e b).fault = e.fault := rfl
@[simp] theorem messageByte_cause (e : Engine) (b : Byte) : (messageByte e b).cause = e.cause := rfl
@[simp] theorem messageByte_keyBlk (e : Engine) (b : Byte) : (messageByte e b).keyBlk = e.keyBlk := rfl
@[simp] theorem messageByte_keyCnt (e : Engine) (b : Byte) : (messageByte e b).keyCnt = e.keyCnt := rfl
@[simp] theorem messageByte_rxCnt (e : Engine) (b : Byte) : (messageByte e b).rxCnt = e.rxCnt := rfl
@[simp] theorem messageByte_txq (e : Engine) (b : Byte) : (messageByte e b).txq = e.txq := rfl
@[simp] theorem messageByte_txRd (e : Engine) (b : Byte) : (messageByte e b).txRd = e.txRd := rfl
@[simp] theorem messageByte_txCnt (e : Engine) (b : Byte) : (messageByte e b).txCnt = e.txCnt := rfl

/-! ### KDONE (R183) -/

@[simp] theorem seedContexts_ctx0 (v : Variant) (e : Engine) :
    (seedContexts v e).ctx0 = absorbAll (ctxInit v) (xorPad (normalizedKey v e) ipadByte) := rfl
@[simp] theorem seedContexts_ctx1 (v : Variant) (e : Engine) :
    (seedContexts v e).ctx1 = absorbAll (ctxInit v) (xorPad (normalizedKey v e) opadByte) := rfl
@[simp] theorem seedContexts_variant (v : Variant) (e : Engine) : (seedContexts v e).variant = e.variant := rfl
@[simp] theorem seedContexts_mode (v : Variant) (e : Engine) : (seedContexts v e).mode = .hmac := rfl
@[simp] theorem seedContexts_fault (v : Variant) (e : Engine) : (seedContexts v e).fault = e.fault := rfl
@[simp] theorem seedContexts_cause (v : Variant) (e : Engine) : (seedContexts v e).cause = e.cause := rfl
@[simp] theorem seedContexts_keyBlk (v : Variant) (e : Engine) : (seedContexts v e).keyBlk = zeroBlock := rfl
@[simp] theorem seedContexts_keyCnt (v : Variant) (e : Engine) : (seedContexts v e).keyCnt = 0 := rfl
@[simp] theorem seedContexts_rxCnt (v : Variant) (e : Engine) : (seedContexts v e).rxCnt = e.rxCnt := rfl
@[simp] theorem seedContexts_txq (v : Variant) (e : Engine) : (seedContexts v e).txq = e.txq := rfl
@[simp] theorem seedContexts_txRd (v : Variant) (e : Engine) : (seedContexts v e).txRd = e.txRd := rfl
@[simp] theorem seedContexts_txCnt (v : Variant) (e : Engine) : (seedContexts v e).txCnt = e.txCnt := rfl

/-! ### `Reset` (R231) -/

theorem resetEngine_eq (e : Engine) : resetEngine e = Engine.reset := rfl

end Sys2Proof.Machine
end

