-- ==== Sys2Proof/Laws/Header.lean ====
section
/-! SUPPORT. What the header step does with a word given by its fields (30_encoding.md R93). -/

namespace Sys2Proof.Machine

/-- A header word that decodes to a command is executed (R93 step 7). -/
theorem headerStep_ok {w : Word} {i : Instr} (h : decode w = .ok i) (s : State) : headerStep w s = exec i s := by
  rw [headerStep, h]

/-- A header word that is rejected takes the exception (R93 steps 1 to 4). -/
theorem headerStep_error {w : Word} {r : Reject} (h : decode w = .error r) (s : State) :
    headerStep w s = .next { s with fault := true, cause := some (rejectCause r) } := by
  rw [headerStep, h]; rfl

/-- A command's own header word is executed. -/
theorem headerStep_encode (i : Instr) (s : State) :
    headerStep (headerWord i.opcode.code i.varField 0 i.lenField) s = exec i s :=
  headerStep_ok (decode_headerWord i) s

/-- A non-zero reserved or unused field raises RESERVED_FIELD (R93 steps 2 to 4, R203). -/
theorem headerStep_reserved (op : Opcode) {var : BitVec 4} {rsv : BitVec 8} {len : BitVec 16} (s : State)
    (h : rsv ≠ 0 ∨ (op.usesVar = false ∧ var ≠ 0) ∨ (op.usesLen = false ∧ len ≠ 0)) :
    headerStep (headerWord op.code var rsv len) s =
      .next { s with fault := true, cause := some .reservedField } :=
  headerStep_error (decode_reserved (op := op) (by simp) (by simpa using h)) s

/-- Taking the exception writes `FAULT` and `CAUSE` and nothing else (60_exceptions.md R206). -/
theorem raiseViolation_eq (c : Cause) (s : State) :
    raiseViolation c s = .next { s with fault := true, cause := some c } := rfl

theorem variantOfCode_none {var : BitVec 4} (h : var ≠ 1 ∧ var ≠ 2) : variantOfCode var = none := by
  revert var; decide

/-- The two valid variant codes (R96). -/
theorem variantOfCode_some {var : BitVec 4} {v : Variant} :
    variantOfCode var = some v ↔ (var = 1 ∧ v = .sha224) ∨ (var = 2 ∧ v = .sha256) := by
  cases v <;> revert var <;> decide

end Sys2Proof.Machine
end

