-- ==== Sys2Proof/Laws/Exec.lean ====
section
/-! SUPPORT. Each meaning once: where the command executes and what it answers there, and where it takes the exception
(30_encoding.md R93 steps 5 to 7). -/

namespace Sys2Proof.Machine

/-- The legality matrix by columns (60_exceptions.md R204). -/
theorem modeAllows_eq (m : Mode) (op : Opcode) : modeAllows m op =
    match op with
    | .hinit => true
    | .kinit => true
    | .update => m == .hash || m == .hmac
    | .final => m == .hash || m == .hmac
    | .key => m == .keying
    | .kdone => m == .keying := by
  cases m <;> cases op <;> rfl

/-- A command that the mode does not allow raises BAD_MODE (R204). -/
theorem exec_badMode {i : Instr} {s : State} (h : modeAllows s.mode i.opcode = false) :
    exec i s = .next { s with fault := true, cause := some .badMode } := by
  cases i with
  | hinit var => cases hm : s.mode <;> rw [hm] at h <;> cases h
  | kinit var => cases hm : s.mode <;> rw [hm] at h <;> cases h
  | update len => simp only [exec, execUpdate]; exact if_neg (by rw [show modeAllows s.mode .update = false from h]; decide)
  | final => simp only [exec, execFinal]; exact if_neg (by rw [show modeAllows s.mode .final = false from h]; decide)
  | key len => simp only [exec, execKey]; exact if_neg (by rw [show modeAllows s.mode .key = false from h]; decide)
  | kdone => simp only [exec, execKdone]; exact if_neg (by rw [show modeAllows s.mode .kdone = false from h]; decide)

/-- An invalid variant code raises BAD_VARIANT in every mode (R96, R205). -/
theorem exec_badVariant {i : Instr} {s : State} (h : i.wellFormed = false) :
    exec i s = .next { s with fault := true, cause := some .badVariant } := by
  cases i with
  | hinit var =>
    have : variantOfCode var = none := variantOfCode_none (by simpa [Instr.wellFormed, validVariantCode] using h)
    simp only [exec, execHinit, this]; rfl
  | kinit var =>
    have : variantOfCode var = none := variantOfCode_none (by simpa [Instr.wellFormed, validVariantCode] using h)
    simp only [exec, execKinit, this]; rfl
  | update len => cases h
  | final => cases h
  | key len => cases h
  | kdone => cases h

theorem exec_hinit {var : BitVec 4} {v : Variant} (h : variantOfCode var = some v) (s : State) :
    exec (.hinit var) s = .next { s with toEngine := startContext v .hash s.toEngine } := by
  simp only [exec, execHinit, h]; rfl

theorem exec_kinit {var : BitVec 4} {v : Variant} (h : variantOfCode var = some v) (s : State) :
    exec (.kinit var) s = .next { s with toEngine := startContext v .keying s.toEngine } := by
  simp only [exec, execKinit, h]; rfl

theorem exec_update {s : State} (h : s.mode = .hash ∨ s.mode = .hmac) (len : BitVec 16) :
    exec (.update len) s = .next { s with rxCnt := len } := by
  simp only [exec, execUpdate]
  exact if_pos (by rw [modeAllows_eq]; simpa using h)

theorem exec_key {s : State} (h : s.mode = .keying) (len : BitVec 16) :
    exec (.key len) s = .next { s with rxCnt := len } := by
  simp only [exec, execKey]
  exact if_pos (by rw [modeAllows_eq]; simpa using h)

theorem exec_kdone {s : State} {v : Variant} (h : s.mode = .keying) (hv : s.variant = some v) :
    exec .kdone s = .next { s with toEngine := seedContexts v s.toEngine } := by
  simp only [exec, execKdone, withVariant, hv]
  exact if_pos (by rw [modeAllows_eq]; simpa using h)

theorem exec_final {s : State} {v : Variant} (h : s.mode = .hash ∨ s.mode = .hmac) (hv : s.variant = some v) :
    exec .final s = .next { s with toEngine := finalEngine v s.toEngine } := by
  simp only [exec, execFinal, withVariant, hv]
  exact if_pos (by rw [modeAllows_eq]; simpa using h)

/-- The one stop of the meanings: FINAL or KDONE with a live context and no variant, a state that R50 item 3 rules
out (log 3). -/
theorem exec_variantAbsent {i : Instr} {s : State} (hi : i = .final ∨ i = .kdone)
    (h : modeAllows s.mode i.opcode = true) (hv : s.variant = none) : exec i s = .fault .variantAbsent := by
  rcases hi with rfl | rfl
  · simp only [exec, execFinal, withVariant, hv]; exact if_pos h
  · simp only [exec, execKdone, withVariant, hv]; exact if_pos h

/-- Everything a command can do (R93): it raises one of the two exceptions that are left to it, or it is stopped by
the absent variant, or it executes. -/
theorem exec_cases (i : Instr) (s : State) :
    (∃ c, exec i s = .next { s with fault := true, cause := some c }) ∨
    (exec i s = .fault .variantAbsent ∧ s.mode ≠ .idle ∧ s.variant = none) ∨
    (∃ v var, i = .hinit var ∧ variantOfCode var = some v ∧
      exec i s = .next { s with toEngine := startContext v .hash s.toEngine }) ∨
    (∃ v var, i = .kinit var ∧ variantOfCode var = some v ∧
      exec i s = .next { s with toEngine := startContext v .keying s.toEngine }) ∨
    (∃ len, i = .update len ∧ (s.mode = .hash ∨ s.mode = .hmac) ∧ exec i s = .next { s with rxCnt := len }) ∨
    (∃ len, i = .key len ∧ s.mode = .keying ∧ exec i s = .next { s with rxCnt := len }) ∨
    (∃ v, i = .kdone ∧ s.mode = .keying ∧ s.variant = some v ∧
      exec i s = .next { s with toEngine := seedContexts v s.toEngine }) ∨
    (∃ v, i = .final ∧ (s.mode = .hash ∨ s.mode = .hmac) ∧ s.variant = some v ∧
      exec i s = .next { s with toEngine := finalEngine v s.toEngine }) := by
  by_cases hw : i.wellFormed = false
  · exact .inl ⟨_, exec_badVariant hw⟩
  by_cases hm : modeAllows s.mode i.opcode = false
  · exact .inl ⟨_, exec_badMode hm⟩
  have hm' : modeAllows s.mode i.opcode = true := by simpa using hm
  rw [modeAllows_eq] at hm'
  cases i with
  | hinit var =>
    cases hv : variantOfCode var with
    | none => exact .inl ⟨.badVariant, by simp only [exec, execHinit, hv]; rfl⟩
    | some v => exact .inr (.inr (.inl ⟨v, var, rfl, hv, exec_hinit hv s⟩))
  | kinit var =>
    cases hv : variantOfCode var with
    | none => exact .inl ⟨.badVariant, by simp only [exec, execKinit, hv]; rfl⟩
    | some v => exact .inr (.inr (.inr (.inl ⟨v, var, rfl, hv, exec_kinit hv s⟩)))
  | update len =>
    have h : s.mode = .hash ∨ s.mode = .hmac := by simpa [Instr.opcode] using hm'
    exact .inr (.inr (.inr (.inr (.inl ⟨len, rfl, h, exec_update h len⟩))))
  | key len =>
    have h : s.mode = .keying := by simpa [Instr.opcode] using hm'
    exact .inr (.inr (.inr (.inr (.inr (.inl ⟨len, rfl, h, exec_key h len⟩)))))
  | kdone =>
    have h : s.mode = .keying := by simpa [Instr.opcode] using hm'
    cases hv : s.variant with
    | none => exact .inr (.inl ⟨exec_variantAbsent (.inr rfl) (by simpa using hm) hv, by simp [h], rfl⟩)
    | some v => exact .inr (.inr (.inr (.inr (.inr (.inr (.inl ⟨v, rfl, h, rfl, exec_kdone h hv⟩))))))
  | final =>
    have h : s.mode = .hash ∨ s.mode = .hmac := by simpa [Instr.opcode] using hm'
    cases hv : s.variant with
    | none =>
      exact .inr (.inl ⟨exec_variantAbsent (.inl rfl) (by simpa using hm) hv, by rcases h with h | h <;> simp [h], rfl⟩)
    | some v => exact .inr (.inr (.inr (.inr (.inr (.inr (.inr ⟨v, rfl, h, rfl, exec_final h hv⟩))))))

end Sys2Proof.Machine
end

