-- ==== Sys2Proof/Laws/Step.lean ====
section
/-! SUPPORT. What a step can do, said once: the inversion lemmas of the header step and of `step`, the engine-level form
that invariants are proved from, and the lemmas that run the machine over a list of events. -/

namespace Sys2Proof.Machine

/-! ### One header -/

/-- What the header word `w` can do to the engine (R93): take the exception, or execute the command it decodes to. -/
inductive HeaderEffect (w : Word) (e : Engine) : Engine → Prop where
  | raised (c : Cause) : HeaderEffect w e { e with fault := true, cause := some c }
  | hashStarted (v : Variant) (var : BitVec 4) (hd : decode w = .ok (.hinit var)) (hv : variantOfCode var = some v) :
      HeaderEffect w e (startContext v .hash e)
  | keyStarted (v : Variant) (var : BitVec 4) (hd : decode w = .ok (.kinit var)) (hv : variantOfCode var = some v) :
      HeaderEffect w e (startContext v .keying e)
  | message (len : BitVec 16) (hd : decode w = .ok (.update len)) (hm : e.mode = .hash ∨ e.mode = .hmac) :
      HeaderEffect w e { e with rxCnt := len }
  | key (len : BitVec 16) (hd : decode w = .ok (.key len)) (hm : e.mode = .keying) :
      HeaderEffect w e { e with rxCnt := len }
  | seeded (v : Variant) (hd : decode w = .ok .kdone) (hm : e.mode = .keying) (hv : e.variant = some v) :
      HeaderEffect w e (seedContexts v e)
  | finished (v : Variant) (hd : decode w = .ok .final) (hm : e.mode = .hash ∨ e.mode = .hmac)
      (hv : e.variant = some v) : HeaderEffect w e (finalEngine v e)

/-- A header step changes the engine by one of the effects and leaves the two streams as they are, or it is stopped by
the absent variant (log 3). -/
theorem headerStep_cases (w : Word) (s : State) :
    (∃ e, HeaderEffect w s.toEngine e ∧ headerStep w s = .next { s with toEngine := e }) ∨
    (headerStep w s = .fault .variantAbsent ∧ s.mode ≠ .idle ∧ s.variant = none) := by
  cases hd : decode w with
  | error r => exact .inl ⟨_, .raised (rejectCause r), headerStep_error hd s⟩
  | ok i =>
    rw [headerStep_ok hd]
    rcases exec_cases i s with ⟨c, h⟩ | ⟨h, hm, hv⟩ | ⟨v, var, rfl, hv, h⟩ | ⟨v, var, rfl, hv, h⟩ | ⟨l, rfl, hm, h⟩ |
      ⟨l, rfl, hm, h⟩ | ⟨v, rfl, hm, hv, h⟩ | ⟨v, rfl, hm, hv, h⟩
    · exact .inl ⟨_, .raised c, h⟩
    · exact .inr ⟨h, hm, hv⟩
    · exact .inl ⟨_, .hashStarted v var hd hv, h⟩
    · exact .inl ⟨_, .keyStarted v var hd hv, h⟩
    · exact .inl ⟨_, .message l hd hm, h⟩
    · exact .inl ⟨_, .key l hd hm, h⟩
    · exact .inl ⟨_, .seeded v hd hm hv, h⟩
    · exact .inl ⟨_, .finished v hd hm hv, h⟩

/-! ### One step -/

theorem inWordEnabled_iff (e : Engine) : inWordEnabled e = true ↔ e.fault = false ∧ e.txCnt = 0 := by
  simp [inWordEnabled]

theorem outWordEnabled_iff (e : Engine) : outWordEnabled e = true ↔ e.txCnt ≠ 0 := by
  simp [outWordEnabled]

theorem step_nothing {s : State} (h : s.pending = []) : step s = hold s := by simp only [step, takeEvent, h]

theorem step_reset {s : State} {rest : List Event} (h : s.pending = .reset :: rest) :
    step s = .next { s with toEngine := Engine.reset, pending := rest } := by simp only [step, takeEvent, h]; rfl

theorem step_outWord {s : State} {rest : List Event} (h : s.pending = .outWord :: rest) (hq : s.txCnt ≠ 0) :
    step s = .next (deliverWord { s with pending := rest }) := by
  simp only [step, takeEvent, h, (outWordEnabled_iff s.toEngine).2 hq, if_true]

theorem step_outWord_hold {s : State} {rest : List Event} (h : s.pending = .outWord :: rest) (hq : s.txCnt = 0) :
    step s = hold s := by
  have : outWordEnabled s.toEngine ≠ true := by rw [Ne, outWordEnabled_iff]; simp [hq]
  simp only [step, takeEvent, h, this]; rfl

theorem step_payload {s : State} {w : Word} {rest : List Event} (h : s.pending = .inWord w :: rest)
    (hf : s.fault = false) (hq : s.txCnt = 0) (hr : s.rxCnt ≠ 0) :
    step s = .next { s with toEngine := payloadStep w s.toEngine, pending := rest } := by
  simp only [step, takeEvent, h, (inWordEnabled_iff s.toEngine).2 ⟨hf, hq⟩, if_true, acceptWord, hr]; rfl

theorem step_header {s : State} {w : Word} {rest : List Event} (h : s.pending = .inWord w :: rest)
    (hf : s.fault = false) (hq : s.txCnt = 0) (hr : s.rxCnt = 0) :
    step s = headerStep w { s with pending := rest } := by
  simp only [step, takeEvent, h, (inWordEnabled_iff s.toEngine).2 ⟨hf, hq⟩, if_true, acceptWord, hr]

theorem step_inWord_hold {s : State} {w : Word} {rest : List Event} (h : s.pending = .inWord w :: rest)
    (hd : s.fault = true ∨ s.txCnt ≠ 0) : step s = hold s := by
  have : inWordEnabled s.toEngine ≠ true := by rw [Ne, inWordEnabled_iff]; rintro ⟨a, b⟩; simp_all
  simp only [step, takeEvent, h, this]; rfl

theorem hold_running {s : State} (h : s.fault = false) : hold s = .next s := by simp [hold, h]

theorem hold_halted {s : State} (h : s.fault = true) : hold s = .fault (.contractViolation s.cause) := by
  simp [hold, h]

/-- Everything a step that answers a next state has done (R13): no event happened, or exactly one did. -/
theorem step_cases {s t : State} (h : step s = .next t) :
    (t = s ∧ s.fault = false ∧ ∀ rest, s.pending ≠ .reset :: rest) ∨
    (∃ rest, s.pending = .reset :: rest ∧ t = { s with toEngine := Engine.reset, pending := rest }) ∨
    (∃ rest, s.pending = .outWord :: rest ∧ s.txCnt ≠ 0 ∧ t = deliverWord { s with pending := rest }) ∨
    (∃ w rest, s.pending = .inWord w :: rest ∧ s.fault = false ∧ s.txCnt = 0 ∧ s.rxCnt ≠ 0 ∧
      t = { s with toEngine := payloadStep w s.toEngine, pending := rest }) ∨
    (∃ w rest e, s.pending = .inWord w :: rest ∧ s.fault = false ∧ s.txCnt = 0 ∧ s.rxCnt = 0 ∧
      HeaderEffect w s.toEngine e ∧ headerStep w { s with pending := rest } = .next t ∧
      t = { s with toEngine := e, pending := rest }) := by
  have waits : hold s = .next t → t = s ∧ s.fault = false := by
    intro hh
    by_cases hf : s.fault = true
    · rw [hold_halted hf] at hh; cases hh
    · have hf' : s.fault = false := by simpa using hf
      rw [hold_running hf'] at hh; cases hh; exact ⟨rfl, hf'⟩
  cases hp : s.pending with
  | nil =>
    rw [step_nothing hp] at h
    exact .inl ⟨(waits h).1, (waits h).2, by simp⟩
  | cons ev rest =>
    cases ev with
    | reset =>
      rw [step_reset hp] at h; cases h
      exact .inr (.inl ⟨rest, rfl, rfl⟩)
    | outWord =>
      by_cases hq : s.txCnt = 0
      · rw [step_outWord_hold hp hq] at h
        exact .inl ⟨(waits h).1, (waits h).2, by simp⟩
      · rw [step_outWord hp hq] at h; cases h
        exact .inr (.inr (.inl ⟨rest, rfl, hq, rfl⟩))
    | inWord w =>
      by_cases hd : s.fault = true ∨ s.txCnt ≠ 0
      · rw [step_inWord_hold hp hd] at h
        exact .inl ⟨(waits h).1, (waits h).2, by simp⟩
      · rw [not_or] at hd
        have hf : s.fault = false := by simpa using hd.1
        have hq : s.txCnt = 0 := by simpa using hd.2
        by_cases hr : s.rxCnt = 0
        · rw [step_header hp hf hq hr] at h
          rcases headerStep_cases w { s with pending := rest } with ⟨e, he, hs⟩ | ⟨hs, -⟩
          · have ht := hs.symm.trans h
            cases ht
            exact .inr (.inr (.inr (.inr ⟨w, rest, e, rfl, hf, hq, hr, he, hs, rfl⟩)))
          · rw [hs] at h; cases h
        · rw [step_payload hp hf hq hr] at h; cases h
          exact .inr (.inr (.inr (.inl ⟨w, rest, rfl, hf, hq, hr, rfl⟩)))

/-- A property of the engine that every event keeps is kept by every step: the form in which invariants are proved. -/
theorem step_keeps {P : Engine → Prop} (hreset : P Engine.reset)
    (hout : ∀ e, P e → e.txCnt ≠ 0 → P (popQueue e))
    (hpay : ∀ e w, P e → e.fault = false → e.txCnt = 0 → e.rxCnt ≠ 0 → P (payloadStep w e))
    (hhead : ∀ e e' w, P e → e.fault = false → e.txCnt = 0 → e.rxCnt = 0 → HeaderEffect w e e' → P e')
    {s t : State} (hs : P s.toEngine) (h : step s = .next t) : P t.toEngine := by
  rcases step_cases h with ⟨rfl, -⟩ | ⟨rest, -, rfl⟩ | ⟨rest, -, hq, rfl⟩ | ⟨w, rest, -, hf, hq, hr, rfl⟩ |
    ⟨w, rest, e, -, hf, hq, hr, he, -, rfl⟩
  · exact hs
  · exact hreset
  · exact hout _ hs hq
  · exact hpay _ w hs hf hq hr
  · exact hhead _ e w hs hf hq hr he

/-! ### Runs -/

@[simp] theorem runSteps_zero (s : State) : runSteps 0 s = .next s := rfl

theorem runSteps_succ {s t : State} (h : step s = .next t) (n : Nat) : runSteps (n + 1) s = runSteps n t := by
  simp only [runSteps, Host.Core.run]
  rw [show Sys2Proof.core.step s = .next t from h]

theorem runSteps_fault {s : State} {f : Fault} (h : step s = .fault f) (n : Nat) :
    runSteps (n + 1) s = .fault f := by
  simp only [runSteps, Host.Core.run]
  rw [show Sys2Proof.core.step s = .fault f from h]
  rfl

theorem runSteps_refused {s : State} {r : Refusal} (h : step s = .refused r) (n : Nat) :
    runSteps (n + 1) s = .refused r := by
  simp only [runSteps, Host.Core.run]
  rw [show Sys2Proof.core.step s = .refused r from h]
  rfl

/-- Two runs one after the other. -/
theorem runSteps_add {s t : State} (m n : Nat) (h : runSteps m s = .next t) :
    runSteps (m + n) s = runSteps n t := by
  induction m generalizing s with
  | zero => cases h; rw [Nat.zero_add]
  | succ m ih =>
    have hm : m + 1 + n = m + n + 1 := by omega
    rw [hm]
    cases hs : step s with
    | next s' =>
      rw [runSteps_succ hs] at h ⊢
      exact ih h
    | fault r => rw [runSteps_fault hs] at h; cases h
    | refused r => rw [runSteps_refused hs] at h; cases h

end Sys2Proof.Machine
end

