-- ==== Sys2Proof/Laws/Ops.lean ====
section
/-! SUPPORT. The payload: what a payload byte and a payload step change, and the net effect of the payload words of a
whole command (30_encoding.md R94, 41_hash_context.md R161, 42_hmac.md R181, R182). -/

namespace Sys2Proof.Machine

/-! ### One payload byte -/

/-- A payload byte changes `CTX[0]` and perhaps the key registers, and nothing else (R94, R182). -/
theorem payloadByte_frame (e : Engine) (b : Byte) :
    ∃ kb kc, payloadByte e b = { e with ctx0 := absorb e.ctx0 b, keyBlk := kb, keyCnt := kc } := by
  unfold payloadByte
  split <;> exact ⟨_, _, rfl⟩

theorem payloadByte_keying {e : Engine} (h : e.mode = .keying) (b : Byte) : payloadByte e b = keyByte e b :=
  if_pos h

theorem payloadByte_message {e : Engine} (h : e.mode ≠ .keying) (b : Byte) : payloadByte e b = messageByte e b :=
  if_neg h

/-! ### A sequence of payload bytes -/

theorem foldl_payload_keying {e : Engine} (h : e.mode = .keying) (bs : List Byte) :
    bs.foldl payloadByte e = bs.foldl keyByte e := by
  induction bs generalizing e with
  | nil => rfl
  | cons b bs ih => rw [List.foldl_cons, List.foldl_cons, payloadByte_keying h]; exact ih h

theorem foldl_payload_message {e : Engine} (h : e.mode ≠ .keying) (bs : List Byte) :
    bs.foldl payloadByte e = { e with ctx0 := absorbAll e.ctx0 bs } := by
  induction bs generalizing e with
  | nil => rfl
  | cons b bs ih => rw [List.foldl_cons, payloadByte_message h, ih (e := messageByte e b) h]; rfl

/-- A sequence of payload bytes changes `CTX[0]` and perhaps the key registers, and nothing else. -/
theorem foldl_payload_frame (e : Engine) (bs : List Byte) :
    ∃ kb kc, bs.foldl payloadByte e = { e with ctx0 := absorbAll e.ctx0 bs, keyBlk := kb, keyCnt := kc } := by
  induction bs generalizing e with
  | nil => exact ⟨_, _, rfl⟩
  | cons b bs ih =>
    obtain ⟨kb, kc, h⟩ := payloadByte_frame e b
    obtain ⟨kb', kc', h'⟩ := ih (payloadByte e b)
    exact ⟨kb', kc', by rw [List.foldl_cons, h', h]; rfl⟩

/-- `RXCNT` plays no part in what a payload byte does. -/
theorem foldl_payload_rxCnt (e : Engine) (r : BitVec 16) (bs : List Byte) :
    bs.foldl payloadByte { e with rxCnt := r } = { bs.foldl payloadByte e with rxCnt := r } := by
  induction bs generalizing e with
  | nil => rfl
  | cons b bs ih =>
    rw [List.foldl_cons, List.foldl_cons]
    have : payloadByte { e with rxCnt := r } b = { payloadByte e b with rxCnt := r } := by
      unfold payloadByte
      split <;> rfl
    rw [this, ih]

/-- `n` key bytes after KINIT: the first 64 are in `KEYBLK`, `KEYCNT` is `min(n, 65)`, and `CTX[0]` has absorbed all
of them (R182). -/
theorem foldl_keyByte (v : Variant) (e : Engine) (key : List Byte) :
    key.foldl keyByte (startContext v .keying e) = { startContext v .keying e with
      ctx0 := absorbAll (ctxInit v) key
      keyBlk := padBlock key
      keyCnt := ⟨min key.length 65, by omega⟩ } := by
  induction key using List.reverseRecOn with
  | nil =>
    simp only [List.foldl_nil, startContext, Engine.mk.injEq, true_and, and_true]
    refine ⟨rfl, ?_, rfl⟩
    ext1 i hi
    rw [padBlock_get]; simp [zeroBlock]
  | append_singleton key b ih =>
    rw [List.foldl_append, ih]
    simp only [List.foldl_cons, List.foldl_nil, keyByte, startContext, Engine.mk.injEq, true_and, and_true]
    refine ⟨by rw [absorbAll_append]; rfl, ?_, ?_⟩
    · split
      · rename_i hlt
        have hk : key.length < 64 := by omega
        ext1 i hi
        rw [putByte, padBlock_get, Vector.getElem_set]
        by_cases h1 : key.length = i
        · subst h1
          rw [if_pos (by simp only; omega), List.getD_append_right _ _ _ _ (le_refl _)]; simp
        · rw [if_neg (by simp only; omega), padBlock_get]
          by_cases h2 : i < key.length
          · rw [List.getD_append _ _ _ _ h2]
          · rw [List.getD_eq_default _ _ (by omega), List.getD_eq_default _ _ (by simp; omega)]
      · rename_i hge
        have hk : 64 ≤ key.length := by omega
        ext1 i hi
        rw [padBlock_get, padBlock_get, List.getD_append _ _ _ _ (by omega)]
    · split
      · rename_i hlt
        apply Fin.ext
        simp only [List.length_append, List.length_singleton]; omega
      · rename_i hge
        apply Fin.ext
        simp only [List.length_append, List.length_singleton]; omega

/-! ### The payload of a whole command -/

/-- The payload words of a command absorb exactly its bytes, and the next word is then a header again (R94). -/
theorem run_payload (m : List Byte) (s : State) (rest : List Event) (hf : s.fault = false) (hq : s.txCnt = 0)
    (hr : s.rxCnt = BitVec.ofNat 16 m.length) (hlen : m.length ≤ 65535)
    (hp : s.pending = presentAll (packWords m) ++ rest) :
    runSteps (packWords m).length s =
      .next { s with toEngine := { m.foldl payloadByte s.toEngine with rxCnt := 0 }, pending := rest } := by
  have one : ∀ (s : State) (w : Word) (k : List Byte) (rest' : List Event), s.fault = false → s.txCnt = 0 →
      s.rxCnt ≠ 0 → s.pending = .inWord w :: rest' → payloadBytes w s.rxCnt = k →
      step s = .next { s with
        toEngine := { k.foldl payloadByte s.toEngine with rxCnt := payloadRest s.rxCnt }, pending := rest' } := by
    intro s w k rest' hf hq hr hp hk
    rw [step_payload hp hf hq hr, payloadStep, hk]
  have rx : ∀ n : Nat, 0 < n → n ≤ 65535 → BitVec.ofNat 16 n ≠ 0 := by
    intro n h1 h2 h3
    have := congrArg BitVec.toNat h3
    simp at this; omega
  induction m using packWords.induct generalizing s with
  | case1 =>
    obtain ⟨e, p, o⟩ := s
    simp only [packWords, List.length_nil, runSteps_zero, presentAll, List.map_nil, List.nil_append,
      List.foldl_nil] at hp hr ⊢
    subst hp
    have : e = { e with rxCnt := 0 } := by rw [← show e.rxCnt = 0 from hr]
    rw [← this]
  | case2 b0 =>
    have h := one s (be32 b0 0 0 0) [b0] rest hf hq (hr ▸ rx 1 (by decide) (by decide)) hp
      (by rw [hr, payloadBytes, bytes32_be32]; rfl)
    rw [packWords, List.length_singleton, runSteps_succ h, runSteps_zero, hr]
    rfl
  | case3 b0 b1 =>
    have h := one s (be32 b0 b1 0 0) [b0, b1] rest hf hq (hr ▸ rx 2 (by decide) (by decide)) hp
      (by rw [hr, payloadBytes, bytes32_be32]; rfl)
    rw [packWords, List.length_singleton, runSteps_succ h, runSteps_zero, hr]
    rfl
  | case4 b0 b1 b2 =>
    have h := one s (be32 b0 b1 b2 0) [b0, b1, b2] rest hf hq (hr ▸ rx 3 (by decide) (by decide)) hp
      (by rw [hr, payloadBytes, bytes32_be32]; rfl)
    rw [packWords, List.length_singleton, runSteps_succ h, runSteps_zero, hr]
    rfl
  | case5 b0 b1 b2 b3 more ih =>
    simp only [List.length_cons] at hr hlen
    have h4 : payloadBytes (be32 b0 b1 b2 b3) s.rxCnt = [b0, b1, b2, b3] := by
      rw [hr, payloadBytes, bytes32_be32]
      apply List.take_of_length_le
      simp only [BitVec.toNat_ofNat, List.length_cons, List.length_nil]
      omega
    have hrest : payloadRest s.rxCnt = BitVec.ofNat 16 more.length := by
      rw [hr, payloadRest]
      congr 1
      simp only [BitVec.toNat_ofNat]
      omega
    have h := one s (be32 b0 b1 b2 b3) [b0, b1, b2, b3] (presentAll (packWords more) ++ rest) hf hq
      (hr ▸ rx _ (by omega) (by omega)) hp h4
    obtain ⟨kb, kc, frame⟩ := foldl_payload_frame s.toEngine [b0, b1, b2, b3]
    rw [packWords, List.length_cons, runSteps_succ h, ih _ (by rw [frame]; exact hf) (by rw [frame]; exact hq) hrest
      (by omega) rfl, foldl_payload_rxCnt]
    rfl

end Sys2Proof.Machine
end

