-- ==== Sys2Proof/Laws/Buffers.lean ====
section
/-! SUPPORT. The shared operations over buffers, the output queue and the key registers: one lemma each for what an
operation can do, and that every append keeps the form R50 item 1 gives a context (10_state.md). -/

namespace Sys2Proof.Machine

/-! ### The form of a context (R50 item 1) -/

/-- The counter counts whole blocks, and the buffer is zero from the fill count on. -/
def HashCtx.BlockForm (x : HashCtx) : Prop := x.len.toNat % 512 = 0 ∧ ∀ i : Fin 64, x.fill ≤ i → x.buf[i] = 0

theorem blockForm_zero : HashCtx.zero.BlockForm := ⟨rfl, fun i _ => by simp [HashCtx.zero, zeroBlock]⟩

theorem blockForm_ctxInit (v : Variant) : (ctxInit v).BlockForm := ⟨rfl, fun i _ => by simp [ctxInit, zeroBlock]⟩

theorem blockForm_pushByte {x : HashCtx} (h : x.BlockForm) (b : Byte) {len : Length} (hl : len.toNat % 512 = 0) :
    (pushByte x b len).BlockForm := by
  by_cases room : x.fill.val + 1 < 64
  · rw [pushByte_room b _ room]
    refine ⟨h.1, fun i hi => ?_⟩
    have hi' : x.fill.val + 1 ≤ i.val := hi
    have h0 := h.2 i (Fin.le_def.2 (by omega))
    show (putByte x.buf x.fill b)[i.val] = 0
    rw [putByte, Vector.getElem_set_ne _ _ (by omega)]
    exact h0
  · rw [pushByte_full b _ (by omega)]
    exact ⟨hl, fun i _ => by simp [dispatch, zeroBlock]⟩

theorem blockForm_absorb {x : HashCtx} (h : x.BlockForm) (b : Byte) : (absorb x b).BlockForm := by
  apply blockForm_pushByte h
  have h512 : (512 : Length).toNat = 512 := rfl
  have h0 := h.1
  rw [BitVec.toNat_add, h512]
  omega

theorem blockForm_absorbPad {x : HashCtx} (h : x.BlockForm) (b : Byte) : (absorbPad x b).BlockForm :=
  blockForm_pushByte h b h.1

theorem blockForm_absorbAll {x : HashCtx} (h : x.BlockForm) (bs : List Byte) : (absorbAll x bs).BlockForm := by
  induction bs generalizing x with
  | nil => exact h
  | cons b bs ih => exact ih (blockForm_absorb h b)

/-- The fill count goes round 0..63 (10_state.md R26). -/
theorem pushByte_fill (x : HashCtx) (b : Byte) (len : Length) :
    (pushByte x b len).fill.val = (x.fill.val + 1) % 64 := by
  have := x.fill.isLt
  by_cases room : x.fill.val + 1 < 64
  · rw [pushByte_room b _ room]
    show x.fill.val + 1 = _
    omega
  · rw [pushByte_full b _ (by omega)]
    show 0 = _
    omega

/-! ### Blocks and pads -/

/-- A sequence of at most 64 bytes with its zero bytes (42_hmac.md R183). -/
theorem padBlock_toList {bs : List Byte} (h : bs.length ≤ 64) :
    (padBlock bs).toList = bs ++ List.replicate (64 - bs.length) 0 := by
  apply List.ext_getElem
  · simp; omega
  · intro i h1 h2
    rw [Vector.getElem_toList, padBlock_get, List.getElem_append]
    split
    · rename_i hi
      rw [List.getD_eq_getElem _ _ hi]
    · rw [List.getD_eq_default _ _ (by omega)]
      simp

@[simp] theorem xorPad_length (k : Block) (p : Byte) : (xorPad k p).length = 64 := by simp [xorPad]

/-- A seeded context (R183): its first block, the padded key, is compressed and counted. -/
theorem absorbAll_xorPad (v : Variant) (k : Block) (p : Byte) :
    absorbAll (ctxInit v) (xorPad k p) =
      { h := compress (iv v) (k.map (· ^^^ p)), buf := zeroBlock, fill := 0, len := 512 } := by
  have hb : padBlock (xorPad k p) = k.map (· ^^^ p) := by
    ext1 i hi
    rw [padBlock_get]
    simp [xorPad, List.getD_eq_getElem?_getD, hi]
  rw [absorbAll_eq, pushAll_block _ _ _ rfl (xorPad_length _ _), hb]
  rfl

/-- The normalized key of the key bytes that have come since KINIT (R184). -/
theorem normalizedKey_foldl (v : Variant) (e : Engine) (key : List Byte) :
    normalizedKey v (key.foldl keyByte (startContext v .keying e)) = keyBlockOf v key := by
  rw [foldl_keyByte, normalizedKey, keyBlockOf]
  simp only
  rw [finalize_absorbAll]
  by_cases h : key.length ≤ 64
  · rw [if_pos h, if_pos (by omega)]
  · rw [if_neg h, if_neg (by omega)]
    rfl

/-! ### The output queue -/

/-- The words FINAL queues are the digest words (R162). -/
theorem queueWords_take (v : Variant) (h : HashState) (q : Vector Word 8) :
    (queueWords v h q).toList.take (digestWords v) = digestOf h v := by
  cases v
  · apply List.ext_getElem
    · simp [digestOf, digestWords]
    · intro i h1 h2
      have hi : i < 7 := by simpa [digestWords] using h1
      simp only [digestOf, List.getElem_take, Vector.getElem_toList, queueWords]
      rcases (by omega : i = 0 ∨ i = 1 ∨ i = 2 ∨ i = 3 ∨ i = 4 ∨ i = 5 ∨ i = 6) with
        rfl | rfl | rfl | rfl | rfl | rfl | rfl <;> rfl
  · rfl

theorem queueCount_val (v : Variant) : (queueCount v).val = digestWords v := by cases v <;> rfl

/-- Either way FINAL goes, it queues the words of some HashState and consumes the context (R162, R185). -/
theorem finalEngine_eq (v : Variant) (e : Engine) :
    finalEngine v e = consumeContext (loadQueue v
      (if e.mode = .hmac then tagState v e else (finalize e.ctx0).h) e) := by
  unfold finalEngine
  split <;> rfl

theorem popQueue_get (e : Engine) (i : Fin 8) : (popQueue e).txq[i] = if e.txRd = i then 0 else e.txq[i] := by
  show (e.txq.set e.txRd.val 0 e.txRd.isLt)[i.val] = _
  rw [Vector.getElem_set]
  simp [Fin.ext_iff]

/-! ### Payload words -/

theorem payloadBytes_length (w : Word) (rx : BitVec 16) : (payloadBytes w rx).length = min 4 rx.toNat := by
  simp [payloadBytes, bytes32]

theorem payloadRest_toNat (rx : BitVec 16) : (payloadRest rx).toNat = rx.toNat - min 4 rx.toNat := by
  have := rx.isLt
  rw [payloadRest, BitVec.toNat_ofNat]
  omega

/-- A payload step changes `CTX[0]`, `RXCNT` and perhaps the key registers, and nothing else (R94). -/
theorem payloadStep_frame (w : Word) (e : Engine) :
    ∃ kb kc, payloadStep w e = { e with
      ctx0 := absorbAll e.ctx0 (payloadBytes w e.rxCnt), keyBlk := kb, keyCnt := kc, rxCnt := payloadRest e.rxCnt } := by
  obtain ⟨kb, kc, h⟩ := foldl_payload_frame e (payloadBytes w e.rxCnt)
  exact ⟨kb, kc, by rw [payloadStep, h]⟩

/-! ### Event lists -/

theorem presentAll_append (a b : List Word) : presentAll (a ++ b) = presentAll a ++ presentAll b := by
  simp [presentAll]

/-- A well-placed header word of a command runs that command. -/
theorem step_encode {s : State} {i : Instr} {rest : List Event} (hp : s.pending = .inWord (encode i) :: rest)
    (hr : ready s.toEngine) : step s = exec i { s with pending := rest } := by
  obtain ⟨hf, hq, hx⟩ := hr
  rw [step_header hp hf hq hx]
  exact headerStep_encode i _

end Sys2Proof.Machine
end

