-- ==== Sys2Proof/Laws/Compression.lean ====
section
/-! SUPPORT. The Compression Core: the list form of the schedule and of the rounds, for proofs by induction on the
number of words or rounds (40_compression_core.md R124 to R130). -/

namespace Sys2Proof.Machine

@[simp] theorem scheduleLoad_length (b : Block) : (scheduleLoad b).length = 16 := by simp [scheduleLoad]

@[simp] theorem scheduleExpand_length (n : Nat) (l : List Word) : (scheduleExpand n l).length = n + l.length := by
  induction n generalizing l with
  | zero => simp [scheduleExpand]
  | succ n ih =>
    rw [scheduleExpand, ih, List.length_cons]
    omega

/-- The schedule has 64 words (00_scope.md R7 `NSCHED`). -/
@[simp] theorem schedule_length (b : Block) : (schedule b).length = 64 := by simp [schedule]

/-- Expanding keeps the words already there. -/
theorem scheduleExpand_suffix (n : Nat) (l : List Word) : ∃ p, scheduleExpand n l = p ++ l ∧ p.length = n := by
  induction n generalizing l with
  | zero => exact ⟨[], rfl, rfl⟩
  | succ n ih =>
    obtain ⟨p, h, hl⟩ := ih (scheduleNext l :: l)
    exact ⟨p ++ [scheduleNext l], by rw [scheduleExpand, h]; simp, by simp [hl]⟩

theorem scheduleExpand_add (m n : Nat) (l : List Word) :
    scheduleExpand (m + n) l = scheduleExpand n (scheduleExpand m l) := by
  induction m generalizing l with
  | zero => simp [scheduleExpand]
  | succ m ih => rw [show m + 1 + n = m + n + 1 by omega, scheduleExpand, ih, scheduleExpand]

@[simp] theorem kTable_length : kTable.length = 64 := rfl

/-- There is one pair of a round constant and a schedule word for each round. -/
theorem rounds_length (b : Block) : (kTable.zip (schedule b)).length = 64 := by simp

/-- `n` moves of the padding state machine after `m` (41_hash_context.md R156). -/
theorem padMoves_add (m n : Nat) (p : PadState) : padMoves (m + n) p = padMoves n (padMoves m p) := by
  induction m generalizing p with
  | zero => simp [padMoves]
  | succ m ih => rw [show m + 1 + n = m + n + 1 by omega, padMoves, ih, padMoves]

end Sys2Proof.Machine
end

