-- ==== Sys2Proof/Laws/PerInstr.lean ====
section
/-! SUPPORT. Statements made of every command, one lemma per constructor of `Instr`. -/

namespace Sys2Proof.Laws.RowMatch

/-- The row of the opcode map that names a command accepts its header word, at every operand (30_encoding.md R95). -/
def Statement (i : Instr) : Prop := ∃ r ∈ opcodeMap, r.opcode = i.opcode ∧ r.accepts (encode i) = true

theorem statement_of_fields {i : Instr} (r : OpRow) (h : r ∈ opcodeMap) (hop : r.opcode = i.opcode)
    (o v o' v' : BitVec 4) (s s' : BitVec 8) (l l' : BitVec 16) (hm : r.mask = headerWord o v s l)
    (hb : r.bits = headerWord o' v' s' l') (h1 : r.opcode.code &&& o = o') (h2 : i.varField &&& v = v')
    (h3 : 0 &&& s = s') (h4 : i.lenField &&& l = l') : Statement i := by
  refine ⟨r, h, hop, ?_⟩
  rw [OpRow.accepts, beq_iff_eq, hm, hb, mask_test, encode]
  simp only [headerOpc_headerWord, headerVar_headerWord, headerRsv_headerWord, headerLen_headerWord]
  exact ⟨hop ▸ h1, h2, h3, h4⟩

theorem hinit (var : BitVec 4) : Statement (.hinit var) :=
  statement_of_fields ⟨.hinit, 0x10000000, 0xF0FFFFFF⟩ (by decide) rfl 15 0 1 0 255 0 65535 0 rfl rfl rfl
    BitVec.and_zero rfl BitVec.zero_and

theorem update (len : BitVec 16) : Statement (.update len) :=
  statement_of_fields ⟨.update, 0x20000000, 0xFFFF0000⟩ (by decide) rfl 15 15 2 0 255 0 0 0 rfl rfl rfl
    BitVec.zero_and rfl BitVec.and_zero

theorem final : Statement .final :=
  statement_of_fields ⟨.final, 0x30000000, 0xFFFFFFFF⟩ (by decide) rfl 15 15 3 0 255 0 65535 0 rfl rfl rfl rfl rfl rfl

theorem kinit (var : BitVec 4) : Statement (.kinit var) :=
  statement_of_fields ⟨.kinit, 0x40000000, 0xF0FFFFFF⟩ (by decide) rfl 15 0 4 0 255 0 65535 0 rfl rfl rfl
    BitVec.and_zero rfl BitVec.zero_and

theorem key (len : BitVec 16) : Statement (.key len) :=
  statement_of_fields ⟨.key, 0x50000000, 0xFFFF0000⟩ (by decide) rfl 15 15 5 0 255 0 0 0 rfl rfl rfl
    BitVec.zero_and rfl BitVec.and_zero

theorem kdone : Statement .kdone :=
  statement_of_fields ⟨.kdone, 0x60000000, 0xFFFFFFFF⟩ (by decide) rfl 15 15 6 0 255 0 65535 0 rfl rfl rfl rfl rfl rfl

end Sys2Proof.Laws.RowMatch
end

