-- ==== Sys2Proof/Tests/Slice0.lean ====
section
/-! SUPPORT. The model's own tests.  Every expected value is taken from the spec: 95_test_vectors.md,
96_test_vectors_hmac.md, or the example of the rule named. -/

namespace Sys2Proof.Tests

open Sys2Proof.Machine

/-! ### Helpers -/

/-- The step answers a next state, and it passes the check. -/
def next (r : Result) (check : State → Bool) : Bool :=
  match r with
  | .next t => check t
  | .fault _ => false
  | .refused _ => false

/-- The reset state with one word on IN. -/
def offer (w : Word) (s : State) : State := { s with pending := [.inWord w] }

/-- A live hash context of SHA-256 right after HINIT. -/
def hashState : State := { State.reset with toEngine := startContext .sha256 .hash Engine.reset }

/-- Key entry for SHA-224 right after KINIT. -/
def keyState : State := { State.reset with toEngine := startContext .sha224 .keying Engine.reset }

/-- A live HMAC context as far as the registers that are checked go. -/
def hmacState : State :=
  { hashState with mode := .hmac, ctx1 := { ctxInit .sha256 with len := 512 } }

/-- Seven words queued, as after a FINAL of SHA-224. -/
def queueState : State :=
  { State.reset with txq := #v[1, 2, 3, 4, 5, 6, 7, 0], txCnt := 7 }

/-- The last of eight words queued. -/
def lastWordState : State :=
  { State.reset with txq := #v[0, 0, 0, 0, 0, 0, 0, 9], txRd := 7, txCnt := 1 }

/-- A halted engine. -/
def faultState : State := { State.reset with fault := true, cause := some .badMode }

/-- A context with these bytes in its buffer and nothing dispatched. -/
def ctxWith (v : Variant) (bs : List Byte) (f : Fin 64) (len : Length) : HashCtx :=
  { h := iv v, buf := padBlock bs, fill := f, len := len }

/-- The 28 bytes "what do ya want for nothing?" (vector H2). -/
def jefeMessage : List Byte := (AsmBytes.ascii "what do ya want for nothing?").bytes

/-- The block of "abc" (95 section 2.2). -/
def abcBlock : Block := padBlock ([0x61, 0x62, 0x63, 0x80] ++ List.replicate 59 0 ++ [0x18])

/-! ### WellFormed (R96) -/

theorem test_wf_hinit_0 : (Instr.hinit 0).wellFormed = false := by decide
theorem test_wf_hinit_3 : (Instr.hinit 3).wellFormed = false := by decide
theorem test_wf_kinit_0 : (Instr.kinit 0).wellFormed = false := by decide
theorem test_wf_kinit_15 : (Instr.kinit 15).wellFormed = false := by decide
theorem test_wf_accepts : (Instr.hinit 1).wellFormed ∧ (Instr.kinit 2).wellFormed ∧ (Instr.update 0).wellFormed ∧
    (Instr.key 65535).wellFormed ∧ Instr.final.wellFormed ∧ Instr.kdone.wellFormed := by decide

/-! ### Decode: words written out field by field, OPC VAR RSV LEN (R90, R95; 95 section 5.1) -/

theorem test_decode_hinit : decode 0b0001_0010_00000000_0000000000000000 = .ok (.hinit 2) := by decide
theorem test_decode_hinit_bad_variant : decode 0b0001_1111_00000000_0000000000000000 = .ok (.hinit 15) := by decide
theorem test_decode_update : decode 0b0010_0000_00000000_0000000000000011 = .ok (.update 3) := by decide
theorem test_decode_final : decode 0b0011_0000_00000000_0000000000000000 = .ok .final := by decide
theorem test_decode_kinit : decode 0b0100_0001_00000000_0000000000000000 = .ok (.kinit 1) := by decide
theorem test_decode_key : decode 0b0101_0000_00000000_1111111111111111 = .ok (.key 65535) := by decide
theorem test_decode_kdone : decode 0b0110_0000_00000000_0000000000000000 = .ok .kdone := by decide
theorem test_decode_opcode_0_first : decode 0x03010001 = .error .illegalOpcode := by decide
theorem test_decode_opcode_7_to_15 : decode 0x70000000 = .error .illegalOpcode ∧
    decode 0x80000000 = .error .illegalOpcode ∧ decode 0xffffffff = .error .illegalOpcode := by decide
theorem test_decode_reserved_hinit : decode 0x12010000 = .error .reservedField ∧
    decode 0x13000001 = .error .reservedField := by decide
theorem test_decode_reserved_update : decode 0x21000003 = .error .reservedField ∧
    decode 0x20010003 = .error .reservedField := by decide
theorem test_decode_reserved_final : decode 0x30000001 = .error .reservedField ∧
    decode 0x32000000 = .error .reservedField := by decide
theorem test_decode_reserved_kinit : decode 0x42000010 = .error .reservedField := by decide
theorem test_decode_reserved_key : decode 0x52000004 = .error .reservedField := by decide
theorem test_decode_reserved_kdone : decode 0x60000001 = .error .reservedField ∧
    decode 0x61000000 = .error .reservedField := by decide
theorem test_encode_words : [encode (.hinit 2), encode (.update 3), encode .final, encode (.kinit 1),
    encode (.key 4), encode .kdone] =
    [0x12000000, 0x20000003, 0x30000000, 0x41000000, 0x50000004, 0x60000000] := by decide
theorem test_decodeTableWord : decodeTableWord 32 0x2000ffff = some (.update 65535) ∧
    decodeTableWord 32 0x70000000 = none := by decide

/-! ### The Compression Core (95 section 2) -/

theorem test_bigSigmas : bigSigma0 0x6a09e667 = 0xce20b47e ∧ bigSigma1 0x510e527f = 0x3587272b ∧
    bigSigma0 0x00000001 = 0x40080400 ∧ bigSigma1 0x80000000 = 0x02100040 := by decide
theorem test_smallSigmas : smallSigma0 0x61626380 = 0x940e90ef ∧ smallSigma1 0x00000018 = 0x000f0000 ∧
    smallSigma0 0x12345678 = 0xe7fce6ee ∧ smallSigma1 0xdeadbeef = 0x689dbfec := by decide
theorem test_ch_maj : ch 0x510e527f 0x9b05688c 0x1f83d9ab = 0x1f85c98c ∧
    maj 0x6a09e667 0xbb67ae85 0x3c6ef372 = 0x3a6fe667 := by decide
theorem test_round_0 : mixRound (workingLoad (iv .sha256)) (kTable.getD 0 0) 0x61626380 =
    { a := 0x5d6aebcd, b := 0x6a09e667, c := 0xbb67ae85, d := 0x3c6ef372
      e := 0xfa2a4622, f := 0x510e527f, g := 0x9b05688c, h := 0x1f83d9ab } := by decide
theorem test_schedule_abc : (schedule abcBlock).drop 60 = [0xa43fcf15, 0x668b2ff8, 0xeeaba2cc, 0x12b1edeb] := by
  decide +kernel
theorem test_window_abc : windowAt (windowBefore abcBlock 63) 63 = 0x12b1edeb := by decide +kernel
theorem test_compress_abc_256 : compress (iv .sha256) abcBlock =
    #v[0xba7816bf, 0x8f01cfea, 0x414140de, 0x5dae2223, 0xb00361a3, 0x96177a9c, 0xb410ff61, 0xf20015ad] := by
  decide +kernel
theorem test_compress_abc_224 : compress (iv .sha224) abcBlock =
    #v[0x23097d22, 0x3405d822, 0x8642a477, 0xbda255b3, 0x2aadbce4, 0xbda0b3f7, 0xe36c9da7, 0xd2da082d] := by
  decide +kernel
/-- All ones in, so every addition carries (95 section 2.5). -/
theorem test_compress_ones : compress (Vector.replicate 8 0xffffffff) (Vector.replicate 64 0xff) =
    #v[0x0598127a, 0xaf11706e, 0x77401fff, 0xd730c549, 0x0b84c867, 0xa98c6ca3, 0xd7f3c0f9, 0x06a78b79] := by
  decide +kernel

/-! ### The hash context (95 section 4) -/

/-- The 64th byte dispatches, and the counter wraps at 2^64 (95 section 4, R153). -/
theorem test_absorb_wraps : (absorb (ctxWith .sha256 [] 63 0xfffffffffffffe00) 0).len = 0 ∧
    (absorb (ctxWith .sha256 [] 63 0xfffffffffffffe00) 0).fill = 0 := by decide +kernel
theorem test_totalBits_wraps : totalBits (ctxWith .sha256 [] 63 0xfffffffffffffe00) = 0xfffffffffffffff8 := by decide
theorem test_padZeros : padZeros 0 = 55 ∧ padZeros 55 = 0 ∧ padZeros 56 = 63 ∧ padZeros 63 = 56 := by decide
/-- 56 bytes in the buffer: two final blocks (95 section 4, row n = 56). -/
theorem test_finalize_56 : (finalize (ctxWith .sha256 (List.replicate 56 0x61) 56 0)).h =
    #v[0xb35439a4, 0xac6f0948, 0xb6d6f9e3, 0xc6af0f5f, 0x590ce20f, 0x1bde7090, 0xef797068, 0x6ec6738a] := by
  decide +kernel

/-! ### The commands -/

/-- R160's example: HINIT SHA256 from reset. -/
theorem test_hinit : next (step (offer 0x12000000 State.reset)) (fun t =>
    decide (t.toEngine = { Engine.reset with
      mode := .hash, variant := some .sha256, ctx0 := { HashCtx.zero with h := iv .sha256 } })) = true := by decide
/-- 95 section 5.1: `VAR` = 15 gives cause 3, whatever the mode. -/
theorem test_hinit_bad_variant : next (step (offer 0x1f000000 keyState)) (fun t =>
    t.fault && stCause t.toEngine == 3 && t.mode == .keying) = true := by decide
/-- 95 section 5.1: UPDATE with `LEN` = 65535 in HASH. -/
theorem test_update : next (step (offer 0x2000ffff hashState)) (fun t =>
    t.rxCnt == 65535 && !t.fault && t.mode == .hash) = true := by decide
/-- 95 section 5.1: UPDATE in KEYING gives cause 4. -/
theorem test_update_keying : next (step (offer 0x20000003 keyState)) (fun t =>
    stCause t.toEngine == 4 && t.rxCnt == 0) = true := by decide
/-- 95 section 5.3: FINAL of "abc" for SHA-224; the eighth queue word stays zero. -/
theorem test_final_hash : next (step (offer 0x30000000 { keyState with
    mode := .hash, ctx0 := ctxWith .sha224 [0x61, 0x62, 0x63] 3 0 })) (fun t =>
    t.txCnt == 7 && t.mode == .idle && t.txq == #v[0x23097d22, 0x3405d822, 0x8642a477, 0xbda255b3, 0x2aadbce4,
      0xbda0b3f7, 0xe36c9da7, 0]) = true := by decide +kernel
/-- 96 P4, IN[12]: the tag of vector H2, from the seeds that KDONE left. -/
theorem test_final_hmac : next (step (offer 0x30000000 { hmacState with
    ctx0 := { h := #v[0x655da7fa, 0xcc434b37, 0x5a1cd5cb, 0x0692ee0e, 0xa47a23d3, 0x4c3af449, 0xdba21ae2, 0x78c7500c]
              buf := padBlock jefeMessage, fill := 28, len := 512 }
    ctx1 := { h := #v[0x0eafe3d5, 0x13412e6c, 0x6a6a2feb, 0x2d375acc, 0x51a4fd47, 0x6db095e8, 0x23bfa18a, 0x52f141d5]
              buf := zeroBlock, fill := 0, len := 512 } })) (fun t =>
    t.txCnt == 8 && t.txq == #v[0x5bdcc146, 0xbf60754e, 0x6a042426, 0x089575c7, 0x5a003f08, 0x9d273983, 0x9dec58b9,
      0x64ec3843]) = true := by decide +kernel
/-- R180's example: KINIT SHA256 from reset. -/
theorem test_kinit : next (step (offer 0x42000000 State.reset)) (fun t =>
    decide (t.toEngine = { Engine.reset with
      mode := .keying, variant := some .sha256, ctx0 := { HashCtx.zero with h := iv .sha256 } })) = true := by decide
/-- KINIT discards a live HMAC context (R180). -/
theorem test_kinit_discards : next (step (offer 0x41000000 hmacState)) (fun t =>
    t.mode == .keying && t.ctx1 == HashCtx.zero && stVariant t.toEngine == 1) = true := by decide
/-- 95 section 5.1: KEY in KEYING. -/
theorem test_key : next (step (offer 0x50000004 keyState)) (fun t => t.rxCnt == 4 && t.mode == .keying) = true := by
  decide
/-- R181's example: the payload word of KEY "Jefe". -/
theorem test_key_payload : next (step (offer 0x4a656665 { keyState with rxCnt := 4 })) (fun t =>
    t.keyCnt == 4 && t.keyBlk == padBlock [0x4a, 0x65, 0x66, 0x65] && t.ctx0.buf == padBlock [0x4a, 0x65, 0x66, 0x65] &&
      t.ctx0.fill == 4 && t.rxCnt == 0) = true := by decide
/-- 96 P4, IN[3]: the two seeds of the key "Jefe". -/
theorem test_kdone : next (step (offer 0x60000000 { keyState with
    variant := some .sha256, keyBlk := padBlock [0x4a, 0x65, 0x66, 0x65], keyCnt := 4 })) (fun t =>
    t.mode == .hmac && t.keyBlk == zeroBlock && t.ctx0.len == 512 &&
      t.ctx0.h == #v[0x655da7fa, 0xcc434b37, 0x5a1cd5cb, 0x0692ee0e, 0xa47a23d3, 0x4c3af449, 0xdba21ae2, 0x78c7500c] &&
      t.ctx1.h == #v[0x0eafe3d5, 0x13412e6c, 0x6a6a2feb, 0x2d375acc, 0x51a4fd47, 0x6db095e8, 0x23bfa18a,
        0x52f141d5]) = true := by decide +kernel
/-- The key of vector H13, 65 bytes: the first 64 have been dispatched and the key is hashed (96 section 1). -/
def longKey : List Byte := (List.range 65).map fun i => BitVec.ofNat 8 (i + 1)
/-- Vector H13 for SHA-224. -/
theorem test_kdone_hashes_long_key : next (step (offer 0x60000000 { keyState with
    toEngine := longKey.foldl keyByte keyState.toEngine })) (fun t =>
    t.ctx0.h == #v[0xb1acffad, 0x5c6693da, 0x5118dc80, 0x51853651, 0x82b3ed39, 0xea72bfba, 0xf3b09398, 0x5f757648]) =
    true := by decide +kernel

/-! ### The events -/

/-- 95 section 5.2, row 5: the low byte of the last payload word is ignored. -/
theorem test_payload_ignores_low_byte : next (step (offer 0x616263ff { hashState with rxCnt := 3 })) (fun t =>
    t.ctx0.buf == padBlock [0x61, 0x62, 0x63] && t.ctx0.fill == 3 && t.rxCnt == 0) = true := by decide
/-- 95 section 5.2, last row: a word that looks like FINAL is payload while payload is expected. -/
theorem test_payload_is_no_header : next (step (offer 0x30000000 { hashState with rxCnt := 8 })) (fun t =>
    t.mode == .hash && t.rxCnt == 4 && t.ctx0.buf == padBlock [0x30]) = true := by decide
/-- 95 section 2.2 (block and digest of "abc") with R152: the third byte of a payload word completes the block, and the
fourth begins the next one. -/
theorem test_payload_dispatches : next (step (offer 0x000018ff { hashState with
    ctx0 := ctxWith .sha256 [0x61, 0x62, 0x63, 0x80] 61 0, rxCnt := 4 })) (fun t =>
    t.ctx0 == { h := #v[0xba7816bf, 0x8f01cfea, 0x414140de, 0x5dae2223, 0xb00361a3, 0x96177a9c, 0xb410ff61, 0xf20015ad],
                buf := padBlock [0xff], fill := 1, len := 512 }) = true := by decide +kernel
/-- R108: the delivered slot is zeroed and the index moves on. -/
theorem test_outWord : next (step { queueState with pending := [.outWord] }) (fun t =>
    t.outStream == [1] && t.txRd == 1 && t.txCnt == 6 && t.txq == #v[0, 2, 3, 4, 5, 6, 7, 0]) = true := by decide
/-- R108 with R50 item 9: the last word leaves the reset state. -/
theorem test_outWord_last : next (step { lastWordState with pending := [.outWord] }) (fun t =>
    t.outStream == [9] && t.toEngine == Engine.reset) = true := by decide
/-- R92: no word is taken while a digest is queued. -/
theorem test_inWord_blocked : next (step (offer 0x12000000 queueState)) (fun t =>
    t.toEngine == queueState.toEngine && t.pending == [.inWord 0x12000000]) = true := by decide
/-- R231: `Reset` in the middle of a payload, and out of a fault. -/
theorem test_reset_event : next (step { hashState with rxCnt := 7, pending := [.reset] }) (fun t =>
    t.toEngine == Engine.reset) = true ∧
    next (step { faultState with pending := [.reset] }) (fun t => t.toEngine == Engine.reset) = true := by decide
/-- R206, R207: a halted engine takes no further word. -/
theorem test_halted : step (offer 0x12000000 faultState) = .fault (.contractViolation (some .badMode)) := by rfl
/-- R205's examples: one cause, the first in the order. -/
theorem test_priority : (([0x00000000, 0x20010003, 0x13000001, 0x13000000, 0x30000000] : List Word).map fun w =>
    next (step (offer w State.reset)) fun t => t.fault && stCause t.toEngine ==
      (if w = 0 then 1 else if w = 0x20010003 ∨ w = 0x13000001 then 2 else if w = 0x13000000 then 3 else 4)) =
    [true, true, true, true, true] := by decide
/-- The host's way in: from reset only the next IN word changes, and it is run as a header. -/
theorem test_withFetchWord : State.reset.withFetchWord 32 0x41000000 = offer 0x41000000 State.reset ∧
    next (step (State.reset.withFetchWord 32 0x41000000)) (fun t => t.mode == .keying) = true := by decide
/-- R113 with R112: the IN words of 96 P10's key part and of an update. -/
theorem test_assemble : [AsmLine.kinit .sha224, .key (.ascii "Jefe"), .kdone, .update (.hex [(6, 1), (6, 2), (6, 3)]),
    .update (.rep 0xaa 5)].flatMap assemble =
    [0x41000000, 0x50000004, 0x4a656665, 0x60000000, 0x20000003, 0x61626300, 0x20000005, 0xaaaaaaaa, 0xaa000000] := by
  decide

/-! ### Witnesses: for each obligation with hypotheses, a state and operands that meet them, clause by clause -/

theorem hashState_inv : Inv hashState.toEngine where
  lenBlocks c := by cases c <;> rfl
  bufTail c i _ := by cases c <;> simp [hashState, ctxOf, ctxInit, ctxClear, HashCtx.zero, zeroBlock]
  idle h := by cases h
  live _ := by simp [hashState]
  outerClear _ := rfl
  keyClear _ := ⟨rfl, rfl⟩
  keying h := by cases h
  hmac h := by cases h
  queued h := absurd rfl h
  drained _ := ⟨rfl, rfl⟩
  delivered i _ := by simp [hashState, Engine.reset, zeroWords]
  faultCause := by simp [hashState, Engine.reset]
  faultQuiet _ := rfl

theorem hashState_genuine : Genuine hashState.toEngine where
  hash _ := ⟨.sha256, [], rfl, rfl⟩
  keying h := by cases h
  hmac h := by cases h

theorem faultState_inv : Inv faultState.toEngine where
  lenBlocks c := by cases c <;> rfl
  bufTail c i _ := by cases c <;> simp [faultState, ctxOf, State.reset, Engine.reset, HashCtx.zero, zeroBlock]
  idle _ := ⟨rfl, rfl, rfl, rfl, rfl, rfl⟩
  live h := absurd rfl h
  outerClear h := by rcases h with h | h <;> cases h
  keyClear _ := ⟨rfl, rfl⟩
  keying h := by cases h
  hmac h := by cases h
  queued h := absurd rfl h
  drained _ := ⟨rfl, rfl⟩
  delivered i _ := by simp [faultState, State.reset, Engine.reset, zeroWords]
  faultCause := by simp [faultState]
  faultQuiet _ := rfl

/-- The last word of eight queued (`TXCNT` = 1), and seven words of SHA-224 queued (`TXCNT` = 7). -/
theorem queued_inv : Inv lastWordState.toEngine ∧ Inv queueState.toEngine := by
  refine ⟨⟨?_, ?_, fun _ => ⟨rfl, rfl, rfl, rfl, rfl, rfl⟩, fun h => absurd rfl h, fun _ => rfl, fun _ => ⟨rfl, rfl⟩,
    ?_, ?_, fun _ => ⟨rfl, rfl, rfl, by decide⟩, ?_, by decide, by decide, by decide⟩,
    ⟨?_, ?_, fun _ => ⟨rfl, rfl, rfl, rfl, rfl, rfl⟩, fun h => absurd rfl h, fun _ => rfl, fun _ => ⟨rfl, rfl⟩,
    ?_, ?_, fun _ => ⟨rfl, rfl, rfl, by decide⟩, ?_, by decide, by decide, by decide⟩⟩
  all_goals first
    | (intro c; cases c <;> rfl)
    | (intro c i _; cases c <;> simp [lastWordState, queueState, ctxOf, State.reset, Engine.reset, HashCtx.zero,
        zeroBlock])

/-- HINIT and KINIT: each field non-zero alone, the codes next to the valid ones, and both variants. -/
theorem test_witness_init : ((255 : BitVec 8) ≠ 0 ∨ (0 : BitVec 16) ≠ 0) ∧ ((0 : BitVec 8) ≠ 0 ∨ (1 : BitVec 16) ≠ 0) ∧
    ((0 : BitVec 4) ≠ 1 ∧ (0 : BitVec 4) ≠ 2) ∧ ((3 : BitVec 4) ≠ 1 ∧ (3 : BitVec 4) ≠ 2) ∧
    ((15 : BitVec 4) ≠ 1 ∧ (15 : BitVec 4) ≠ 2) ∧
    ((1 : BitVec 4) = 1 ∧ Variant.sha224 = .sha224 ∨ (1 : BitVec 4) = 2 ∧ Variant.sha224 = .sha256) ∧
    ((2 : BitVec 4) = 1 ∧ Variant.sha256 = .sha224 ∨ (2 : BitVec 4) = 2 ∧ Variant.sha256 = .sha256) := by decide

/-- The reserved-field clauses of UPDATE, KEY, FINAL and KDONE. -/
theorem test_witness_reserved : ((1 : BitVec 4) ≠ 0 ∨ (0 : BitVec 8) ≠ 0) ∧ ((0 : BitVec 4) ≠ 0 ∨ (1 : BitVec 8) ≠ 0) ∧
    ((0 : BitVec 4) ≠ 0 ∨ (0 : BitVec 8) ≠ 0 ∨ (1 : BitVec 16) ≠ 0) := by decide

/-- The four modes: each clause of UPDATE, KEY, FINAL and KDONE on `MODE` is met by one of them. -/
theorem test_witness_modes : State.reset.mode = .idle ∧ hashState.mode = .hash ∧ keyState.mode = .keying ∧
    hmacState.mode = .hmac ∧ hashState.variant = some .sha256 ∧ keyState.variant = some .sha224 ∧
    hmacState.variant = some .sha256 := by decide

/-- A whole UPDATE of the greatest length, and an empty one, presented to a ready engine. -/
theorem test_witness_update (n : Nat) (h : n = 0 ∨ n = 65535) : ∃ (s : State) (m : List Byte) (rest : List Event),
    s.mode = .hash ∧ ready s.toEngine ∧ m.length = n ∧ m.length ≤ 65535 ∧
      s.pending = presentAll (updateWords m) ++ rest :=
  ⟨{ hashState with pending := presentAll (updateWords (List.replicate n 0)) ++ [] }, List.replicate n 0, [], rfl,
    ⟨rfl, rfl, rfl⟩, List.length_replicate, by rw [List.length_replicate]; omega, rfl⟩

/-- A whole KEY of the greatest length, and an empty one. -/
theorem test_witness_key (n : Nat) (h : n = 0 ∨ n = 65535) : ∃ (s : State) (ks : List Byte) (rest : List Event),
    s.mode = .keying ∧ ready s.toEngine ∧ ks.length = n ∧ ks.length ≤ 65535 ∧
      s.pending = presentAll (keyWords ks) ++ rest :=
  ⟨{ keyState with pending := presentAll (keyWords (List.replicate n 0)) ++ [] }, List.replicate n 0, [], rfl,
    ⟨rfl, rfl, rfl⟩, List.length_replicate, by rw [List.length_replicate]; omega, rfl⟩

/-- FINAL in HMAC, and KDONE with the key count at 64 and at 65. -/
theorem test_witness_final_kdone :
    (∃ (s : State) (v : Variant) (d : List Byte) (o : HashCtx), s.mode = .hmac ∧ s.variant = some v ∧
      d = (((finalize s.ctx0).h.toList.take (match v with | .sha224 => 7 | .sha256 => 8)).flatMap bytes32) ∧
      o = finalize (d.foldl absorb s.ctx1)) ∧
    (∀ n : Fin 66, n = 64 ∨ n = 65 → ∃ (s : State) (v : Variant) (k0 : Block), s.mode = .keying ∧
      s.variant = some v ∧ s.keyCnt = n ∧ k0 = (if s.keyCnt.val ≤ 64 then s.keyBlk
        else padBlock (((finalize s.ctx0).h.toList.take (match v with | .sha224 => 7 | .sha256 => 8)).flatMap
          bytes32))) :=
  ⟨⟨hmacState, .sha256, _, _, rfl, rfl, rfl, rfl⟩,
    fun n _ => ⟨{ keyState with keyCnt := n }, .sha224, _, rfl, rfl, rfl, rfl⟩⟩

/-- Two cuts of one message: "a" then "bb", and "ab" then "b". -/
theorem test_witness_chunks : (ready hashState.toEngine ∧ hashState.mode = .hash) ∧
    (ready keyState.toEngine ∧ keyState.mode = .keying) ∧ (ready hmacState.toEngine ∧ hmacState.mode = .hmac) ∧
    (∀ c ∈ ([[0x61], [0x62, 0x62]] : List (List Byte)), c.length ≤ 65535) ∧
    (∀ d ∈ ([[0x61, 0x62], [0x62]] : List (List Byte)), d.length ≤ 65535) ∧
    ([[0x61], [0x62, 0x62]] : List (List Byte)).flatten = [[0x61, 0x62], [0x62]].flatten :=
  ⟨⟨⟨rfl, rfl, rfl⟩, rfl⟩, ⟨⟨rfl, rfl, rfl⟩, rfl⟩, ⟨⟨rfl, rfl, rfl⟩, rfl⟩, by decide, by decide, by decide⟩

/-- A HASH and an HMAC run, in a mode that they discard. -/
theorem test_witness_hash_hmac (v : Variant) :
    (∃ (s : State) (chunks : List (List Byte)) (rest : List Event), Inv s.toEngine ∧ ready s.toEngine ∧
      (∀ c ∈ chunks, c.length ≤ 65535) ∧ chunks.flatten.length < 2 ^ 61 ∧
      s.pending = presentAll (hashWords v chunks) ++ (takeAll (digestWords v) ++ rest)) ∧
    (∃ (s : State) (keyChunks chunks : List (List Byte)) (rest : List Event), Inv s.toEngine ∧ ready s.toEngine ∧
      (∀ c ∈ keyChunks, c.length ≤ 65535) ∧ (∀ c ∈ chunks, c.length ≤ 65535) ∧
      keyChunks.flatten.length < 2 ^ 61 ∧ 64 + chunks.flatten.length < 2 ^ 61 ∧
      s.pending = presentAll (hmacWords v keyChunks chunks) ++ (takeAll (digestWords v) ++ rest)) :=
  ⟨⟨{ hashState with pending := presentAll (hashWords v [[0x61], [0x62, 0x63]]) ++ (takeAll (digestWords v) ++ []) },
      [[0x61], [0x62, 0x63]], [], hashState_inv, ⟨rfl, rfl, rfl⟩, by decide, by decide, rfl⟩,
    ⟨{ hashState with
        pending := presentAll (hmacWords v [[0x4a, 0x65], [0x66, 0x65]] [[0x61]]) ++ (takeAll (digestWords v) ++ []) },
      [[0x4a, 0x65], [0x66, 0x65]], [[0x61]], [], hashState_inv, ⟨rfl, rfl, rfl⟩, by decide, by decide, by decide,
      by decide, rfl⟩⟩

/-- A ready engine with a header word that decodes. -/
theorem test_witness_header : (offer 0x30000000 hashState).pending = .inWord 0x30000000 :: [] ∧
    ready (offer 0x30000000 hashState).toEngine ∧ decode 0x30000000 = .ok .final ∧
    (0x13000001 : Word).toNat / 2 ^ 28 = 1 ∧ (0x13000001 : Word).toNat / 2 ^ 24 % 2 ^ 4 = 3 ∧
    (0x13000001 : Word).toNat / 2 ^ 16 % 2 ^ 8 = 0 ∧ (0x13000001 : Word).toNat % 2 ^ 16 = 1 :=
  ⟨rfl, ⟨rfl, rfl, rfl⟩, by decide, by decide, by decide, by decide, by decide⟩

/-- Words that meet the operand clauses of the opcode map. -/
theorem test_witness_operands : (decode 0x1f000000 = .ok (.hinit 15) ∨ decode 0x1f000000 = .ok (.kinit 15)) ∧
    (decode 0x5000ffff = .ok (.update 65535) ∨ decode 0x5000ffff = .ok (.key 65535)) ∧
    (Instr.kinit 2).wellFormed = true ∧ (hashState.mode ≠ .idle → hashState.variant ≠ none) := by decide

/-- The clauses of `InWord`: payload, header, and the two ways of being disabled. -/
theorem test_witness_inWord : (offer 0 { hashState with rxCnt := 1 }).pending = .inWord 0 :: [] ∧
    ({ hashState with rxCnt := 1 } : State).fault = false ∧ ({ hashState with rxCnt := 1 } : State).txCnt = 0 ∧
    ({ hashState with rxCnt := 1 } : State).rxCnt ≠ 0 ∧ hashState.rxCnt = 0 ∧ faultState.fault = true ∧
    lastWordState.txCnt ≠ 0 ∧ queueState.txCnt ≠ 0 := by decide

/-- A payload word with one byte left, with four left, and with the most; a word that differs below its bytes; both
routes; and a state that meets the invariants. -/
theorem test_witness_payload : min 4 (1 : BitVec 16).toNat = 1 ∧ min 4 (4 : BitVec 16).toNat = 4 ∧
    min 4 (65535 : BitVec 16).toNat = 4 ∧ (0x61ffffff : Word) >>> (32 - 8 * 1) = (0x61000000 : Word) >>> (32 - 8 * 1) ∧
    ({ keyState with rxCnt := 1 } : State).mode = .keying ∧ ({ hashState with rxCnt := 65535 } : State).mode ≠ .keying := by
  decide
theorem test_witness_payload_inv (r : BitVec 16) : Inv { hashState.toEngine with rxCnt := r } :=
  ⟨hashState_inv.lenBlocks, hashState_inv.bufTail, (fun h => by cases h), hashState_inv.live, hashState_inv.outerClear,
    hashState_inv.keyClear, hashState_inv.keying, hashState_inv.hmac, fun h => absurd rfl h, hashState_inv.drained,
    hashState_inv.delivered, hashState_inv.faultCause, hashState_inv.faultQuiet⟩

/-- `OutWord` with the first and with the last word, and with none; the drain of one word and of seven. -/
theorem test_witness_outWord : queueState.txCnt ≠ 0 ∧ lastWordState.txCnt ≠ 0 ∧ hashState.txCnt = 0 ∧
    ({ lastWordState with pending := [.outWord] } : State).pending = takeAll lastWordState.txCnt.val ++ [] ∧
    Inv lastWordState.toEngine ∧ Inv queueState.toEngine :=
  ⟨by decide, by decide, rfl, by decide, queued_inv.1, queued_inv.2⟩

/-- `Reset`, a step that raises, and a halted engine that is not reset. -/
theorem test_witness_fault : ({ faultState with pending := [.reset] } : State).pending = .reset :: [] ∧
    step (offer 0 State.reset) = .next { faultState with cause := some .illegalOpcode } ∧
    State.reset.fault = false ∧ faultState.fault = true ∧ (∀ rest, faultState.pending ≠ .reset :: rest) ∧
    faultState.txCnt = 0 ∧ Inv faultState.toEngine ∧
    (∃ t : State, step { faultState with pending := [.reset] } = .next t ∧ t.fault = false) :=
  ⟨rfl, rfl, rfl, rfl, fun _ h => (by cases h), rfl, faultState_inv, ⟨_, rfl, rfl⟩⟩

/-- A step from a state that meets the invariants, that takes a byte. -/
theorem test_witness_step : Inv hashState.toEngine ∧ Genuine hashState.toEngine ∧
    step (offer 0x20000001 hashState) = .next { hashState with rxCnt := 1 } :=
  ⟨hashState_inv, hashState_genuine, rfl⟩

/-- Two keys that differ, with KDONE presented, and with a FINAL that KEYING does not allow; two contexts that differ,
with a FINAL that IDLE does not allow; and two messages that differ, with HINIT presented in HASH. -/
theorem test_witness_secrets :
    (∀ w0 : Word, w0 = 0x60000000 ∨ w0 = 0x30000000 →
      sameButSecrets (offer w0 keyState)
        { offer w0 keyState with keyBlk := Vector.replicate 64 0xff, keyCnt := 64 } ∧
      (∀ w rest, (offer w0 keyState).pending = .inWord w :: rest → ready (offer w0 keyState).toEngine →
        (offer w0 keyState).mode = .hash ∨ (offer w0 keyState).mode = .hmac → decode w ≠ .ok .final)) ∧
    (sameButSecrets (offer 0x30000000 State.reset) { offer 0x30000000 State.reset with ctx0 := ctxInit .sha256 } ∧
      (∀ w rest, (offer 0x30000000 State.reset).pending = .inWord w :: rest → ready State.reset.toEngine →
        State.reset.mode = .hash ∨ State.reset.mode = .hmac → decode w ≠ .ok .final)) ∧
    (sameButSecrets (offer 0x12000000 hashState) { offer 0x12000000 hashState with ctx0 := ctxInit .sha224 } ∧
      (∀ w rest, (offer 0x12000000 hashState).pending = .inWord w :: rest → ready hashState.toEngine →
        hashState.mode = .hash ∨ hashState.mode = .hmac → decode w ≠ .ok .final)) :=
  ⟨fun _ _ => ⟨⟨rfl, rfl, rfl, rfl, rfl, rfl, rfl, rfl, rfl, rfl⟩, fun _ _ _ _ h => by
      rcases h with h | h <;> cases h⟩,
    ⟨⟨rfl, rfl, rfl, rfl, rfl, rfl, rfl, rfl, rfl, rfl⟩, fun _ _ _ _ h => by rcases h with h | h <;> cases h⟩,
    ⟨⟨rfl, rfl, rfl, rfl, rfl, rfl, rfl, rfl, rfl, rfl⟩, fun w _ h _ _ => by
      obtain ⟨h, -⟩ := List.cons.inj h
      cases h
      decide⟩⟩

/-- Each way in which a HashState changes: an initialisation, which clears the other context; a dispatch within a
payload word; KDONE; an executed FINAL; and `Reset`. -/
theorem test_witness_hash_state :
    (∃ t : State, step (offer 0x12000000 keyState) = .next t ∧ (ctxOf t.toEngine .zero).h = iv .sha256 ∧
      (ctxOf t.toEngine .one).h = zeroWords) ∧
    (∃ t : State, step (offer 0x41000000 hmacState) = .next t ∧ (ctxOf t.toEngine .zero).h = iv .sha224) ∧
    (payloadBytes 0x000018ff 4 = [0, 0] ++ 0x18 :: [0xff] ∧
      (([0, 0] : List Byte).foldl absorb (ctxWith .sha256 [0x61, 0x62, 0x63, 0x80] 61 0)).fill.val = 63) ∧
    (∃ t : State, step (offer 0x60000000 keyState) = .next t) ∧
    (∃ t : State, step (offer 0x30000000 hashState) = .next t ∧ (ctxOf t.toEngine .zero).h = zeroWords) ∧
    (∃ t : State, step { hashState with pending := [.reset] } = .next t ∧ (ctxOf t.toEngine .zero).h = zeroWords) :=
  ⟨⟨_, rfl, rfl, rfl⟩, ⟨_, rfl, rfl⟩, by decide, ⟨_, rfl⟩, ⟨_, rfl, rfl⟩, ⟨_, rfl, rfl⟩⟩

/-- UPDATE of five bytes with its two words and with the first of them, an UPDATE of no byte, a KEY of the greatest
length before its payload, and a header after which payload is expected. -/
theorem test_witness_payload_end :
    (∀ ws : List Word, ws = [0x30000000, 0x61ffffff] ∨ ws = [0x30000000] →
      ready ({ hashState with pending := presentAll (encode (.update 5) :: ws) ++ [] } : State).toEngine ∧
      ((∃ len, Instr.update 5 = .update len) ∧ (hashState.mode = .hash ∨ hashState.mode = .hmac)) ∧
      ws.length ≤ (Instr.update 5).payloadWords) ∧
    (Instr.update 5).payloadWords = 2 ∧ ([] : List Word).length ≤ (Instr.update 0).payloadWords ∧
    ready keyState.toEngine ∧ ((∃ len, Instr.key 65535 = .key len) ∧ keyState.mode = .keying) ∧
    ([] : List Word).length ≤ (Instr.key 65535).payloadWords ∧ (Instr.key 65535).payloadWords = 16384 ∧
    (∃ t : State, step (offer 0x20000001 hashState) = .next t ∧ t.rxCnt ≠ 0) :=
  ⟨fun ws h => ⟨⟨rfl, rfl, rfl⟩, ⟨⟨_, rfl⟩, .inl rfl⟩, by rcases h with rfl | rfl <;> decide⟩, by decide, by decide,
    ⟨rfl, rfl, rfl⟩, ⟨⟨_, rfl⟩, rfl⟩, by decide, by decide, ⟨_, rfl, by decide⟩⟩

/-- The outputs with words queued and with none. -/
theorem test_witness_outputs : 0 < queueState.txCnt.val ∧ 0 < lastWordState.txCnt.val ∧ hashState.txCnt = 0 := by decide

/-- The bounds of the rotation amounts, of the schedule index and of the window index. -/
theorem test_witness_core : (0 < 1 ∧ 1 < 32) ∧ (0 < 31 ∧ 31 < 32) ∧ (16 ≤ 16 ∧ 16 < 64) ∧ (16 ≤ 63 ∧ 63 < 64) ∧
    0 < 64 := by decide

/-- The working variables before each round of the "abc" block. -/
def workingAt : Nat → Working
  | 0 => workingLoad (iv .sha256)
  | t + 1 => mixRound (workingAt t) (kTable.getD t 0) ((schedule abcBlock).getD t 0)
theorem test_witness_rounds :
    workingAt 0 = { a := (iv .sha256)[0], b := (iv .sha256)[1], c := (iv .sha256)[2], d := (iv .sha256)[3]
                    e := (iv .sha256)[4], f := (iv .sha256)[5], g := (iv .sha256)[6], h := (iv .sha256)[7] } ∧
    ∀ t, t < 64 → ∃ t1 t2 : Word,
      t1 = (workingAt t).h + bigSigma1 (workingAt t).e + ch (workingAt t).e (workingAt t).f (workingAt t).g +
        kTable.getD t 0 + (schedule abcBlock).getD t 0 ∧
      t2 = bigSigma0 (workingAt t).a + maj (workingAt t).a (workingAt t).b (workingAt t).c ∧
      workingAt (t + 1) =
        { a := t1 + t2, b := (workingAt t).a, c := (workingAt t).b, d := (workingAt t).c
          e := (workingAt t).d + t1, f := (workingAt t).e, g := (workingAt t).f, h := (workingAt t).g } :=
  ⟨rfl, fun _ _ => ⟨_, _, rfl, rfl, rfl⟩⟩

/-- The fill counts at the edges of the clauses of absorb and of the padding, and the least run of the padding
machine. -/
theorem test_witness_context : (ctxWith .sha256 [] 0 0).fill.val + 1 < 64 ∧ (ctxWith .sha256 [] 62 0).fill.val + 1 < 64 ∧
    (ctxWith .sha256 [] 63 0).fill.val = 63 ∧ (ctxWith .sha256 [] 55 0).fill.val ≤ 55 ∧
    ¬ (ctxWith .sha256 [] 56 0).fill.val ≤ 55 ∧ 73 ≤ 73 ∧
    (∀ (x : HashCtx) (v : Variant) (m : List Byte), ∃ (d : List Byte) (l : Length) (y : HashCtx),
      d = x.buf.toList.take x.fill.val ∧ l = x.len + BitVec.ofNat 64 (8 * x.fill.val) ∧
        y = m.foldl absorb (ctxInit v)) :=
  ⟨by decide, by decide, by decide, by decide, by decide, by decide, fun _ _ _ => ⟨_, _, _, rfl, rfl, rfl⟩⟩

/-- Keys of the lengths at the edges of R184's rows, and the last word of each digest. -/
theorem test_witness_lengths : ([] : List Byte).length = 0 ∧ (List.replicate 64 (0 : Byte)).length ≤ 64 ∧
    65 ≤ longKey.length ∧ longKey.length < 2 ^ 61 ∧ (6 : Fin 8).val < digestWords .sha224 ∧
    (7 : Fin 8).val < digestWords .sha256 ∧ (List.replicate 56 (0 : Byte)).length = 56 := by decide

/-- KDONE and FINAL that execute. -/
theorem test_witness_residue : (∃ t : State, exec .kdone keyState = .next t ∧ t.fault = false) ∧
    (∃ t : State, exec .final hashState = .next t ∧ t.fault = false) :=
  ⟨⟨_, rfl, rfl⟩, ⟨_, rfl, rfl⟩⟩

end Sys2Proof.Tests
end

section
/-! PROOFS. The state family (10_state.md): what each event does to a HashState (R22). -/

namespace Sys2Proof.Machine

/-! ### What each update does to a HashState -/

theorem seedContexts_ctx0_h (v : Variant) (e : Engine) :
    (seedContexts v e).ctx0.h = compress (iv v) ((normalizedKey v e).map (· ^^^ ipadByte)) := by
  rw [seedContexts_ctx0, absorbAll_xorPad]

theorem seedContexts_ctx1_h (v : Variant) (e : Engine) :
    (seedContexts v e).ctx1.h = compress (iv v) ((normalizedKey v e).map (· ^^^ opadByte)) := by
  rw [seedContexts_ctx1, absorbAll_xorPad]

/-- FINAL clears both contexts (R162, R185 step 5). -/
theorem ctxOf_finalEngine (v : Variant) (e : Engine) (c : CtxIndex) : ctxOf (finalEngine v e) c = ctxClear := by
  rw [finalEngine_eq]
  cases c <;> rfl

theorem ctxOf_reset (c : CtxIndex) : ctxOf Engine.reset c = HashCtx.zero := by cases c <;> rfl

theorem ctxOf_popQueue (e : Engine) (c : CtxIndex) : ctxOf (popQueue e) c = ctxOf e c := by cases c <;> rfl

theorem payloadStep_ctx0 (w : Word) (e : Engine) :
    (payloadStep w e).ctx0 = absorbAll e.ctx0 (payloadBytes w e.rxCnt) := by
  obtain ⟨_, _, frame⟩ := payloadStep_frame w e
  rw [frame]

theorem payloadStep_ctx1 (w : Word) (e : Engine) : (payloadStep w e).ctx1 = e.ctx1 := by
  obtain ⟨_, _, frame⟩ := payloadStep_frame w e
  rw [frame]

/-- A payload word carries at most four bytes, so it dispatches at most one block: the HashState of `CTX[0]` stays, or
is compressed with the block that the byte arriving at fill count 63 completes (R22, R94, R152). -/
theorem payloadStep_ctx0_h (w : Word) (e : Engine) :
    (payloadStep w e).ctx0.h = e.ctx0.h ∨
    ∃ pre b post, payloadBytes w e.rxCnt = pre ++ b :: post ∧ (absorbAll e.ctx0 pre).fill.val = 63 ∧
      (payloadStep w e).ctx0.h =
        compress e.ctx0.h (putByte (absorbAll e.ctx0 pre).buf (absorbAll e.ctx0 pre).fill b) := by
  have short : (payloadBytes w e.rxCnt).length ≤ 64 := by rw [payloadBytes_length]; omega
  rw [payloadStep_ctx0]
  exact pushAll_h (· + 512) e.ctx0 _ short

/-! ### R22 -/

/-- Settles O31, by cases on the event of the step: waiting and `OutWord` leave both contexts; a header has one of
the effects of `HeaderEffect`; a payload word reaches `CTX[0]` alone, through `absorb`. -/
theorem hashStateIsNeverPartlyUpdated : Obligations.HashStateIsNeverPartlyUpdated := by
  intro s t c h
  rcases step_cases h with ⟨rfl, -⟩ | ⟨rest, hp, rfl⟩ | ⟨rest, -, -, rfl⟩ | ⟨w, rest, hp, hf, hq, hr, rfl⟩ |
    ⟨w, rest, e, hp, hf, hq, hr, effect, -, rfl⟩
  · exact .inl rfl
  · exact .inr (.inr (.inr ⟨rest, hp, congrArg HashCtx.h (ctxOf_reset c)⟩))
  · exact .inl (congrArg HashCtx.h (ctxOf_popQueue s.toEngine c))
  · cases c with
    | one => exact .inl (congrArg HashCtx.h (payloadStep_ctx1 w s.toEngine))
    | zero =>
      rcases payloadStep_ctx0_h w s.toEngine with same | ⟨pre, b, post, bytes, full, dispatched⟩
      · exact .inl same
      · exact .inr (.inr (.inl ⟨w, rest, pre, post, b, _, hp, hf, hq, hr, rfl, bytes, rfl, full, dispatched⟩))
  · have hready : ready s.toEngine := ⟨hf, hq, hr⟩
    cases effect with
    | raised cause => exact .inl (by cases c <;> rfl)
    | message len => exact .inl (by cases c <;> rfl)
    | key len => exact .inl (by cases c <;> rfl)
    | hashStarted v var hd hv =>
      exact .inr (.inl ⟨w, rest, hp, hready,
        .inl ⟨v, var, .inl hd, variantOfCode_some.1 hv, by cases c <;> rfl⟩⟩)
    | keyStarted v var hd hv =>
      exact .inr (.inl ⟨w, rest, hp, hready,
        .inl ⟨v, var, .inr hd, variantOfCode_some.1 hv, by cases c <;> rfl⟩⟩)
    | seeded v hd hm hv =>
      refine .inr (.inl ⟨w, rest, hp, hready, .inr (.inl ⟨v, _, hd, hm, hv, rfl, ?_⟩)⟩)
      cases c with
      | zero => exact seedContexts_ctx0_h v s.toEngine
      | one => exact seedContexts_ctx1_h v s.toEngine
    | finished v hd hm hv =>
      exact .inr (.inl ⟨w, rest, hp, hready,
        .inr (.inr ⟨v, hd, hm, hv, congrArg HashCtx.h (ctxOf_finalEngine v s.toEngine c)⟩)⟩)

end Sys2Proof.Machine
end

section
/-! PROOFS. The encoding family (30_encoding.md): the checks of the header step in their order (R93) and the bytes of a
payload word (R94). -/

namespace Sys2Proof.Machine

/-! ### The four fields of a header as numbers (R90) -/

theorem headerOpc_toNat (w : Word) : (headerOpc w).toNat = w.toNat / 2 ^ 28 := by
  have := w.isLt
  rw [headerOpc, toNat_slice]
  omega

theorem headerVar_toNat (w : Word) : (headerVar w).toNat = w.toNat / 2 ^ 24 % 2 ^ 4 := toNat_slice w 24 4

theorem headerRsv_toNat (w : Word) : (headerRsv w).toNat = w.toNat / 2 ^ 16 % 2 ^ 8 := toNat_slice w 16 8

theorem headerLen_toNat (w : Word) : (headerLen w).toNat = w.toNat % 2 ^ 16 := by
  rw [headerLen, toNat_slice, Nat.pow_zero, Nat.div_one]

theorem toNat_ne_zero_iff {n : Nat} (x : BitVec n) : x.toNat ≠ 0 ↔ x ≠ 0 := by
  rw [ne_eq, ne_eq, BitVec.toNat_eq, BitVec.ofNat_eq_ofNat, BitVec.toNat_zero]

/-! ### The conditions of the checks, by the number of the opcode (R93) -/

theorem ofCode_none_iff (c : BitVec 4) : Opcode.ofCode c = none ↔ c.toNat ∉ [1, 2, 3, 4, 5, 6] := by
  revert c; decide

theorem code_mem (op : Opcode) : op.code.toNat ∈ [1, 2, 3, 4, 5, 6] := by cases op <;> decide

theorem code_mem_iff_unused_var (op : Opcode) : op.code.toNat ∈ [2, 3, 5, 6] ↔ op.usesVar = false := by
  cases op <;> decide

theorem code_mem_iff_used_var (op : Opcode) : op.code.toNat ∈ [1, 4] ↔ op.usesVar = true := by
  cases op <;> decide

theorem code_mem_iff_unused_len (op : Opcode) : op.code.toNat ∈ [1, 3, 4, 6] ↔ op.usesLen = false := by
  cases op <;> decide

theorem validVariantCode_false_iff (var : BitVec 4) : validVariantCode var = false ↔ var.toNat ∉ [1, 2] := by
  revert var; decide

/-- The variant code is checked in HINIT and KINIT alone (R93 step 5, R96). -/
theorem wellFormed_instr (op : Opcode) (var : BitVec 4) (len : BitVec 16) :
    (op.instr var len).wellFormed = (!op.usesVar || validVariantCode var) := by
  cases op <;> rfl

theorem wellFormed_instr_false_iff (op : Opcode) (var : BitVec 4) (len : BitVec 16) :
    (op.instr var len).wellFormed = false ↔ op.code.toNat ∈ [1, 4] ∧ var.toNat ∉ [1, 2] := by
  rw [wellFormed_instr, Bool.or_eq_false_iff, Bool.not_eq_false', validVariantCode_false_iff, code_mem_iff_used_var]

/-- The legality matrix by the number of the opcode (R93 step 6, 60_exceptions.md R204). -/
theorem modeAllows_false_iff (m : Mode) (op : Opcode) : modeAllows m op = false ↔
    (op.code.toNat ∈ [2, 3] ∧ m ≠ .hash ∧ m ≠ .hmac) ∨ (op.code.toNat ∈ [5, 6] ∧ m ≠ .keying) := by
  cases op <;> cases m <;> decide

@[simp] theorem instr_opcode (op : Opcode) (var : BitVec 4) (len : BitVec 16) : (op.instr var len).opcode = op := by
  cases op <;> rfl

/-- The command of an opcode, chosen by the number of the opcode (R95). -/
theorem exec_instr_by_code (op : Opcode) (var : BitVec 4) (len : BitVec 16) (s : State) :
    exec (op.instr var len) s =
      if op.code.toNat = 1 then exec (.hinit var) s
      else if op.code.toNat = 2 then exec (.update len) s
      else if op.code.toNat = 3 then exec .final s
      else if op.code.toNat = 4 then exec (.kinit var) s
      else if op.code.toNat = 5 then exec (.key len) s
      else exec .kdone s := by
  cases op <;> rfl

/-! ### The header step (R93) -/

/-- A header word with a known opcode whose reserved and unused fields are 0 decodes to that opcode's command (R93
steps 1 to 4). -/
theorem decode_ok {w : Word} {op : Opcode} (ho : headerOpc w = op.code) (hr : ¬headerRsv w ≠ 0)
    (hv : ¬(op.usesVar = false ∧ headerVar w ≠ 0)) (hl : ¬(op.usesLen = false ∧ headerLen w ≠ 0)) :
    decode w = .ok (op.instr (headerVar w) (headerLen w)) := by
  rw [decode, ho, ofCode_code]
  dsimp only
  rw [if_neg hr, if_neg hv, if_neg hl]

/-- The checks after the opcode's, in the order of R93, for a header word with a known opcode. -/
theorem headerStep_checks {w : Word} {op : Opcode} (ho : headerOpc w = op.code) (s : State) :
    headerStep w s =
      if headerRsv w ≠ 0 then .next { s with fault := true, cause := some .reservedField }
      else if op.usesVar = false ∧ headerVar w ≠ 0 then .next { s with fault := true, cause := some .reservedField }
      else if op.usesLen = false ∧ headerLen w ≠ 0 then .next { s with fault := true, cause := some .reservedField }
      else if (op.instr (headerVar w) (headerLen w)).wellFormed = false then
        .next { s with fault := true, cause := some .badVariant }
      else if modeAllows s.mode op = false then .next { s with fault := true, cause := some .badMode }
      else exec (op.instr (headerVar w) (headerLen w)) s := by
  split_ifs with hr hv hl hw hm
  · exact headerStep_error (decode_reserved ho (.inl hr)) s
  · exact headerStep_error (decode_reserved ho (.inr (.inl hv))) s
  · exact headerStep_error (decode_reserved ho (.inr (.inr hl))) s
  · rw [headerStep_ok (decode_ok ho hr hv hl), exec_badVariant hw]
  · rw [headerStep_ok (decode_ok ho hr hv hl), exec_badMode (by rwa [instr_opcode])]
  · exact headerStep_ok (decode_ok ho hr hv hl) s

/-- Settles O12: an unknown opcode is rejected by the decoder; for a known one the chain of `headerStep_checks` has the
statement's conditions, each read by the opcode's number. -/
theorem headerChecksInTheirOrder : Obligations.HeaderChecksInTheirOrder := by
  intro w s opc var rsv len hopc hvar hrsv hlen
  rw [← headerOpc_toNat] at hopc
  rw [← headerVar_toNat] at hvar
  rw [← headerRsv_toNat] at hrsv
  rw [← headerLen_toNat] at hlen
  subst hopc hvar hrsv hlen
  cases hop : Opcode.ofCode (headerOpc w) with
  | none => rw [if_pos ((ofCode_none_iff _).1 hop), headerStep_error (decode_illegal hop)]; rfl
  | some op =>
    have ho : headerOpc w = op.code := (code_of_ofCode hop).symm
    rw [ho, if_neg (not_not.2 (code_mem op)), headerStep_checks ho, exec_instr_by_code]
    simp only [toNat_ne_zero_iff, code_mem_iff_unused_var, code_mem_iff_unused_len, wellFormed_instr_false_iff,
      modeAllows_false_iff, BitVec.ofNat_toNat, BitVec.setWidth_eq]

/-! ### Payload words (R94) -/

/-- `RXCNT` falls by the number of bytes the word carries. -/
theorem payloadRest_eq_sub (rx : BitVec 16) : payloadRest rx = rx - BitVec.ofNat 16 (min 4 rx.toNat) := by
  have := rx.isLt
  apply BitVec.eq_of_toNat_eq
  rw [payloadRest_toNat, BitVec.toNat_sub, BitVec.toNat_ofNat]
  omega

/-- In KEYING the bytes are key bytes (R94, R182). -/
theorem payloadStep_keying (w : Word) {e : Engine} (h : e.mode = .keying) :
    payloadStep w e = { (payloadBytes w e.rxCnt).foldl keyByte e with rxCnt := payloadRest e.rxCnt } := by
  rw [payloadStep, foldl_payload_keying h]

/-- In every other mode the bytes go to `CTX[0]` (R94). -/
theorem payloadStep_message (w : Word) {e : Engine} (h : e.mode ≠ .keying) :
    payloadStep w e =
      { e with ctx0 := absorbAll e.ctx0 (payloadBytes w e.rxCnt), rxCnt := payloadRest e.rxCnt } := by
  rw [payloadStep, foldl_payload_message h]

/-- A slice of a word shifted right is a slice of the word. -/
theorem slice_ushiftRight (w : Word) (n lo len : Nat) : (w >>> n).extractLsb' lo len = w.extractLsb' (n + lo) len := by
  apply BitVec.eq_of_toNat_eq
  rw [toNat_slice, toNat_slice, BitVec.toNat_ushiftRight, Nat.shiftRight_eq_div_pow, Nat.div_div_eq_div_mul,
    Nat.pow_add]

theorem bytes32_eq_map (w : Word) : bytes32 w = (List.range 4).map fun i => w.extractLsb' (24 - 8 * i) 8 := rfl

/-- The first `k` bytes of a word lie in its upper `8 * k` bits (R10). -/
theorem bytes32_take_congr {w w' : Word} {k : Nat} (hk : k ≤ 4) (h : w' >>> (32 - 8 * k) = w >>> (32 - 8 * k)) :
    (bytes32 w').take k = (bytes32 w).take k := by
  simp only [bytes32_eq_map, ← List.map_take, List.take_range]
  refine List.map_congr_left fun i hi => ?_
  have hi : i < k := (List.mem_range.1 hi).trans_le (Nat.min_le_left k 4)
  have shifted (x : Word) :
      x.extractLsb' (24 - 8 * i) 8 = (x >>> (32 - 8 * k)).extractLsb' (8 * (k - 1 - i)) 8 := by
    rw [slice_ushiftRight, show 32 - 8 * k + 8 * (k - 1 - i) = 24 - 8 * i by omega]
  rw [shifted, shifted, h]

/-- A payload step does not read the bits below the bytes the word carries (R94, R70). -/
theorem payloadStep_congr {w w' : Word} (e : Engine)
    (h : w' >>> (32 - 8 * min 4 e.rxCnt.toNat) = w >>> (32 - 8 * min 4 e.rxCnt.toNat)) :
    payloadStep w' e = payloadStep w e := by
  have bytes : payloadBytes w' e.rxCnt = payloadBytes w e.rxCnt := bytes32_take_congr (Nat.min_le_left _ _) h
  rw [payloadStep, bytes, payloadStep]

/-- R50 item 2: payload is expected only while a context is live. -/
theorem Inv.mode_ne_idle {e : Engine} (inv : Inv e) (hr : e.rxCnt ≠ 0) : e.mode ≠ .idle := by
  intro idle
  obtain ⟨-, -, -, -, -, rx⟩ := inv.idle idle
  exact hr rx

/-- Settles O19: the word is taken by `payloadStep`, whose bytes go by the mode, and which depends on the word only
through the bytes it carries. -/
theorem payloadWordIsTakenBytewise : Obligations.PayloadWordIsTakenBytewise := by
  intro s w rest k bs hp hf hq hr hk hbs
  obtain rfl : bs = payloadBytes w s.rxCnt := by rw [hbs, hk]; rfl
  subst hk
  have taken := step_payload hp hf hq hr
  rw [← payloadRest_eq_sub]
  refine ⟨fun keying => ?_, fun message => ?_, fun w' agree => ?_, fun inv => inv.mode_ne_idle hr⟩
  · rw [taken, payloadStep_keying w keying]
  · rw [taken, payloadStep_message w message]; rfl
  · have taken' := step_payload (s := { s with pending := .inWord w' :: rest }) rfl hf hq hr
    rw [taken, taken', payloadStep_congr s.toEngine agree]

end Sys2Proof.Machine
end

section
/-! PROOFS. The compression-core family (40_compression_core.md): the logical functions bit by bit (R121 to R123), the
message schedule (R124, R125), its sliding window (R126) and the composition of `compress` (R127 to R130). -/

namespace Sys2Proof.Machine

/-! ### The logical functions (R121 to R123) -/

/-- R121: `Ch` chooses between the bits of `y` and `z` by the bit of `x`. -/
theorem ch_getElem (x y z : Word) (i : Nat) (h : i < 32) : (ch x y z)[i] = if x[i] then y[i] else z[i] := by
  simp only [ch, BitVec.getElem_xor, BitVec.getElem_and, BitVec.getElem_not]
  cases x[i] <;> simp

/-- R121: `Maj` is 1 where at least two of the three bits are. -/
theorem maj_getElem (x y z : Word) (i : Nat) (h : i < 32) :
    (maj x y z)[i] = decide (2 ≤ x[i].toNat + y[i].toNat + z[i].toNat) := by
  simp only [maj, BitVec.getElem_xor, BitVec.getElem_and]
  generalize x[i] = p, y[i] = q, z[i] = r
  revert p q r
  decide

theorem ch_zeros (y z : Word) : ch 0 y z = z := by
  refine BitVec.eq_of_getElem_eq fun i hi => ?_
  rw [ch_getElem, if_neg (by simp)]

theorem ch_ones (y z : Word) : ch 0xffffffff y z = y := by
  have ones : (0xffffffff : Word) = BitVec.allOnes 32 := rfl
  refine BitVec.eq_of_getElem_eq fun i hi => ?_
  rw [ch_getElem, ones, if_pos (BitVec.getElem_allOnes i hi)]

theorem maj_self (x z : Word) : maj x x z = x := by
  refine BitVec.eq_of_getElem_eq fun i hi => ?_
  rw [maj_getElem]
  generalize x[i] = p, z[i] = r
  revert p r
  decide

/-- R11: a bit of a rotation comes from the right shift while `i + n < 32`, else from the left shift. -/
theorem rotr_getElem (x : Word) {n i : Nat} (hn : n < 32) (hi : i < 32) :
    (rotr x n)[i] = x[(i + n) % 32]'(Nat.mod_lt _ (by decide)) := by
  rw [rotr, BitVec.getElem_or, BitVec.getElem_ushiftRight, BitVec.getElem_shiftLeft]
  by_cases low : i + n < 32
  · have inRange : i < 32 - n := by omega
    simp [inRange, Nat.mod_eq_of_lt low, Nat.add_comm n i, low]
  · have wrapped : (i + n) % 32 = i - (32 - n) := by omega
    have outOfRange : ¬ i < 32 - n := by omega
    simp [outOfRange, wrapped, BitVec.getLsbD_of_ge x (n + i) (by omega)]

theorem shr_toNat (x : Word) (n : Nat) : (shr x n).toNat = x.toNat / 2 ^ n := by
  rw [shr, BitVec.toNat_ushiftRight, Nat.shiftRight_eq_div_pow]

/-- Settles O33: the bits by `ch_getElem` and `maj_getElem`, from which the corner cases follow. -/
theorem chChoosesAndMajTakesTheMajority : Obligations.ChChoosesAndMajTakesTheMajority :=
  fun x y z => ⟨rfl, rfl, fun i => ch_getElem x y z i i.isLt, fun i => maj_getElem x y z i i.isLt,
    ch_zeros y z, ch_ones y z, maj_self x z⟩

/-- Settles O34: the rotation by `rotr_getElem`, the shift by `shr_toNat`; the corner cases are fixed words. -/
theorem sigmasRotateAndShift : Obligations.SigmasRotateAndShift :=
  ⟨fun x _ i _ hn => rotr_getElem x hn i.isLt, shr_toNat, fun _ => ⟨rfl, rfl, rfl, rfl⟩, by decide⟩

/-! ### The message schedule (R124, R125) -/

/-- The first 16 words of the schedule are the loaded ones. -/
theorem schedule_eq_load_append (b : Block) : ∃ post, schedule b = scheduleLoad b ++ post := by
  obtain ⟨p, expanded, -⟩ := scheduleExpand_suffix 48 (scheduleLoad b).reverse
  exact ⟨p.reverse, by rw [schedule, expanded, List.reverse_append, List.reverse_reverse]⟩

/-- The word added after `m` words is `scheduleNext` of the words before it, and later ones are put before it. -/
theorem scheduleExpand_split (m n : Nat) (l : List Word) : ∃ p,
    scheduleExpand (m + (n + 1)) l = p ++ scheduleNext (scheduleExpand m l) :: scheduleExpand m l := by
  obtain ⟨p, expanded, -⟩ := scheduleExpand_suffix n (scheduleNext (scheduleExpand m l) :: scheduleExpand m l)
  exact ⟨p, by rw [scheduleExpand_add, scheduleExpand, expanded]⟩

/-- Each word after the load is `scheduleNext` of the words before it, the latest first. -/
theorem schedule_split (b : Block) {t : Nat} (h16 : 16 ≤ t) (h64 : t < 64) :
    ∃ pre post, schedule b = pre ++ scheduleNext pre.reverse :: post ∧ pre.length = t := by
  obtain ⟨p, expanded⟩ := scheduleExpand_split (t - 16) (63 - t) (scheduleLoad b).reverse
  rw [show t - 16 + (63 - t + 1) = 48 by omega] at expanded
  refine ⟨(scheduleExpand (t - 16) (scheduleLoad b).reverse).reverse, p.reverse, ?_, ?_⟩
  · simp [schedule, expanded]
  · simp only [List.length_reverse, scheduleExpand_length, scheduleLoad_length]
    omega

/-- R124: the schedule load. -/
theorem schedule_load (b : Block) (t : Fin 16) : (schedule b).getD t 0 = blockWord b t := by
  obtain ⟨post, loaded⟩ := schedule_eq_load_append b
  rw [loaded, List.getD_append _ _ _ _ (by simp), List.getD_eq_getElem _ _ (by simp)]
  simp [scheduleLoad]

/-- R125: the recurrence. -/
theorem schedule_recurrence (b : Block) {t : Nat} (h16 : 16 ≤ t) (h64 : t < 64) :
    (schedule b).getD t 0 =
      smallSigma1 ((schedule b).getD (t - 2) 0) + (schedule b).getD (t - 7) 0 +
        smallSigma0 ((schedule b).getD (t - 15) 0) + (schedule b).getD (t - 16) 0 := by
  obtain ⟨pre, post, split, rfl⟩ := schedule_split b h16 h64
  have earlier (k : Nat) (hk : k < pre.length) :
      pre.reverse.getD k 0 = (schedule b).getD (pre.length - 1 - k) 0 := by
    rw [List.getD_reverse _ hk, split, List.getD_append _ _ _ _ (by omega)]
  calc (schedule b).getD pre.length 0
    _ = scheduleNext pre.reverse := by simp [split]
    _ = _ := by
      rw [scheduleNext, earlier 1 (by omega), earlier 6 (by omega), earlier 14 (by omega), earlier 15 (by omega)]
      rfl

/-- Settles O35, by `schedule_load` and `schedule_recurrence`. -/
theorem scheduleFollowsItsRecurrence : Obligations.ScheduleFollowsItsRecurrence := by
  refine fun b => ⟨schedule_length b, fun t => ?_, fun t h16 h64 => ?_⟩
  · rw [List.getElem_eq_getD 0, schedule_load, blockWord]
  · simp only [List.getElem_eq_getD (0 : Word)]
    exact schedule_recurrence b h16 h64

/-! ### The sliding window (R126) -/

/-- The store holds the 16 schedule words that end with `W[last]`, each at its index mod 16. -/
def WindowHolds (b : Block) (w : Vector Word 16) (last : Nat) : Prop :=
  ∀ u, u ≤ last → last < u + 16 → windowAt w u = (schedule b).getD u 0

/-- Sixteen rounds apart, the same entry is read. -/
theorem windowAt_sub_sixteen (w : Vector Word 16) {t : Nat} (h16 : 16 ≤ t) : windowAt w t = windowAt w (t - 16) := by
  have sameIndex : t % 16 = (t - 16) % 16 := by omega
  simp only [windowAt, sameIndex]

theorem windowLoad_holds (b : Block) : WindowHolds b (windowLoad b) 15 := by
  intro u hu _
  have hu : u < 16 := by omega
  simp only [windowAt, windowLoad, Vector.getElem_ofFn, Nat.mod_eq_of_lt hu]
  exact (schedule_load b ⟨u, hu⟩).symm

/-- The update before round `t` replaces `W[t-16]` by `W[t]`. -/
theorem windowUpdate_holds {b : Block} {w : Vector Word 16} {t : Nat} (h16 : 16 ≤ t) (h64 : t < 64)
    (holds : WindowHolds b w (t - 1)) : WindowHolds b (windowUpdate w t) t := by
  intro u hu hlast
  rcases Nat.eq_or_lt_of_le hu with rfl | older
  · have entry : windowAt (windowUpdate w u) u =
        smallSigma1 (windowAt w (u - 2)) + windowAt w (u - 7) + smallSigma0 (windowAt w (u - 15)) + windowAt w u :=
      Vector.getElem_set_self _
    rw [entry, schedule_recurrence b h16 h64, windowAt_sub_sixteen w h16, holds (u - 2) (by omega) (by omega),
      holds (u - 7) (by omega) (by omega), holds (u - 15) (by omega) (by omega),
      holds (u - 16) (by omega) (by omega)]
  · have kept : windowAt (windowUpdate w t) u = windowAt w u := Vector.getElem_set_ne _ _ (by omega)
    rw [kept, holds u (by omega) (by omega)]

theorem windowBefore_of_lt (b : Block) {t : Nat} (h : t < 16) : windowBefore b t = windowLoad b := by
  induction t with
  | zero => rfl
  | succ t ih => rw [windowBefore, if_pos h, ih (by omega)]

/-- From the last loaded word on, the store of round `t` ends with `W[t]`. -/
theorem windowBefore_holds (b : Block) {t : Nat} (h15 : 15 ≤ t) (h64 : t < 64) :
    WindowHolds b (windowBefore b t) t := by
  induction t, h15 using Nat.le_induction with
  | base => rw [windowBefore_of_lt b (by decide)]; exact windowLoad_holds b
  | succ t h15 ih =>
    rw [windowBefore, if_neg (by omega)]
    exact windowUpdate_holds (by omega) h64 (ih (by omega))

/-- Settles O36: up to round 15 the store is the load; from there on it satisfies `WindowHolds`, the invariant of the
update. -/
theorem slidingWindowDeliversTheSchedule : Obligations.SlidingWindowDeliversTheSchedule := by
  intro b t h64
  rcases Nat.lt_or_ge t 16 with loaded | later
  · rw [windowBefore_of_lt b loaded]
    exact windowLoad_holds b t (by omega) (by omega)
  · exact windowBefore_holds b (by omega) h64 t (by omega) (by omega)

/-! ### The rounds and the state addition (R127 to R130) -/

/-- A sequence that follows the steps of a fold ends at the fold's value. -/
theorem foldl_eq_of_steps {α β : Type} (f : α → β → α) (l : List β) (v : Nat → α)
    (steps : ∀ t (h : t < l.length), v (t + 1) = f (v t) l[t]) : l.foldl f (v 0) = v l.length := by
  induction l generalizing v with
  | nil => rfl
  | cons x l ih =>
    have first : v 1 = f (v 0) x := steps 0 (by simp)
    rw [List.foldl_cons, ← first]
    exact ih (fun t => v (t + 1)) fun t h => steps (t + 1) (by simpa using h)

/-- R128: working variables that follow the 64 rounds end at `mixRounds`. -/
theorem mixRounds_eq_of_rounds (b : Block) (v : Nat → Working)
    (rounds : ∀ t, t < 64 → v (t + 1) = mixRound (v t) (kTable.getD t 0) ((schedule b).getD t 0)) :
    mixRounds (v 0) (schedule b) = v 64 := by
  rw [mixRounds, foldl_eq_of_steps _ _ v, rounds_length]
  intro t h
  have h64 : t < 64 := by rwa [rounds_length] at h
  rw [rounds t h64, List.getElem_zip, List.getElem_eq_getD 0, List.getElem_eq_getD 0]

/-- Settles O37: the given steps are the rounds of `mixRound`, and `compress` adds what they end with. -/
theorem compressIsSixtyFourRoundsAndTheAdder : Obligations.CompressIsSixtyFourRoundsAndTheAdder := by
  intro s b v start steps
  have mixed : mixRounds (v 0) (schedule b) = v 64 := by
    refine mixRounds_eq_of_rounds b v fun t h => ?_
    obtain ⟨t1, t2, rfl, rfl, next⟩ := steps t h
    exact next
  have load : workingLoad s = v 0 := start.symm
  rw [compress, load, mixed, stateAdd]

end Sys2Proof.Machine
end

section
/-! PROOFS. The hash-context family (41_hash_context.md): the buffer append (R152), the length (R154), the padding
(R155) and the digest (R157); the commands HINIT, UPDATE and FINAL (R160 to R162, 42_hmac.md R186); and the commands of
a cut message or key (R164). -/

namespace Sys2Proof.Machine

/-! ### The exceptions left to a command (30_encoding.md R93 steps 5 and 6) -/

theorem headerStep_badMode (i : Instr) {s : State} (h : modeAllows s.mode i.opcode = false) :
    headerStep (headerWord i.opcode.code i.varField 0 i.lenField) s =
      .next { s with fault := true, cause := some .badMode } := by
  rw [headerStep_encode, exec_badMode h]

theorem headerStep_badVariant (i : Instr) (s : State) (h : i.wellFormed = false) :
    headerStep (headerWord i.opcode.code i.varField 0 i.lenField) s =
      .next { s with fault := true, cause := some .badVariant } := by
  rw [headerStep_encode, exec_badVariant h]

/-- UPDATE and FINAL need a live hash or HMAC context (60_exceptions.md R204). -/
theorem modeAllows_message_false {m : Mode} {op : Opcode} (hop : op = .update ∨ op = .final)
    (hm : m = .idle ∨ m = .keying) : modeAllows m op = false := by
  rcases hop with rfl | rfl <;> rcases hm with rfl | rfl <;> rfl

/-! ### A command with its payload (R161, 42_hmac.md R181) -/

/-- The IN words of a command that announces its payload: its header and the packed bytes (30_encoding.md R91). -/
def commandWords (cmd : BitVec 16 → Instr) (bs : List Byte) : List Word :=
  encode (cmd (BitVec.ofNat 16 bs.length)) :: packWords bs

theorem updateWords_eq : updateWords = commandWords .update := rfl

theorem keyWords_eq : keyWords = commandWords .key := rfl

@[simp] theorem foldl_payload_mode (e : Engine) (bs : List Byte) : (bs.foldl payloadByte e).mode = e.mode := by
  obtain ⟨_, _, frame⟩ := foldl_payload_frame e bs
  rw [frame]

theorem foldl_payload_ready {e : Engine} (h : ready e) (bs : List Byte) : ready (bs.foldl payloadByte e) := by
  obtain ⟨_, _, frame⟩ := foldl_payload_frame e bs
  rw [frame]
  exact h

/-- `RXCNT` announced before the payload and used up after it leaves the effect of the bytes on a ready engine. -/
theorem foldl_payload_announced {e : Engine} (h : ready e) (len : BitVec 16) (bs : List Byte) :
    { bs.foldl payloadByte { e with rxCnt := len } with rxCnt := 0 } = bs.foldl payloadByte e := by
  obtain ⟨-, -, hr⟩ := h
  have unannounced : { e with rxCnt := 0 } = e := by rw [← hr]
  calc { bs.foldl payloadByte { e with rxCnt := len } with rxCnt := 0 }
    _ = { bs.foldl payloadByte e with rxCnt := 0 } := by rw [foldl_payload_rxCnt]
    _ = bs.foldl payloadByte { e with rxCnt := 0 } := (foldl_payload_rxCnt e 0 bs).symm
    _ = bs.foldl payloadByte e := by rw [unannounced]

section
variable {cmd : BitVec 16 → Instr} {m : Mode}
  (announces : ∀ (s : State) (len : BitVec 16), s.mode = m → exec (cmd len) s = .next { s with rxCnt := len })
include announces

/-- The net effect of a whole command whose header announces its payload in mode `m` (R94). -/
theorem run_command {s : State} {bs : List Byte} {rest : List Event} (hm : s.mode = m) (hs : ready s.toEngine)
    (hlen : bs.length ≤ 65535) (hp : s.pending = presentAll (commandWords cmd bs) ++ rest) :
    runSteps (commandWords cmd bs).length s =
      .next { s with toEngine := bs.foldl payloadByte s.toEngine, pending := rest } := by
  have header : step s = .next { s with
      rxCnt := BitVec.ofNat 16 bs.length, pending := presentAll (packWords bs) ++ rest } :=
    (step_encode hp hs).trans (announces _ _ hm)
  have ⟨hf, hq, _⟩ := hs
  rw [← foldl_payload_announced hs (BitVec.ofNat 16 bs.length) bs]
  exact (runSteps_succ header _).trans (run_payload bs _ rest hf hq rfl hlen rfl)

/-- The net effect of several such commands depends only on their bytes together (R164). -/
theorem run_commands {s : State} {cs : List (List Byte)} {rest : List Event} (hm : s.mode = m)
    (hs : ready s.toEngine) (hlen : ∀ c ∈ cs, c.length ≤ 65535)
    (hp : s.pending = presentAll (cs.flatMap (commandWords cmd)) ++ rest) :
    runSteps (cs.flatMap (commandWords cmd)).length s =
      .next { s with toEngine := cs.flatten.foldl payloadByte s.toEngine, pending := rest } := by
  induction cs generalizing s with
  | nil =>
    have same : s.pending = rest := hp
    subst same
    rfl
  | cons c cs ih =>
    rw [List.flatMap_cons, presentAll_append, List.append_assoc] at hp
    have first := run_command announces hm hs (hlen c List.mem_cons_self) hp
    rw [List.flatMap_cons, List.length_append, runSteps_add _ _ first,
      ih (by simpa using hm) (foldl_payload_ready hs c) (fun d hd => hlen d (List.mem_cons_of_mem c hd)) rfl,
      List.flatten_cons, List.foldl_append]

end

/-- UPDATE commands absorb their bytes into `CTX[0]` (R161, R186). -/
theorem run_updates {s : State} {cs : List (List Byte)} {rest : List Event} (hm : s.mode = .hash ∨ s.mode = .hmac)
    (hs : ready s.toEngine) (hlen : ∀ c ∈ cs, c.length ≤ 65535)
    (hp : s.pending = presentAll (cs.flatMap updateWords) ++ rest) :
    runSteps (cs.flatMap updateWords).length s =
      .next { s with ctx0 := absorbAll s.ctx0 cs.flatten, pending := rest } := by
  have message : s.mode ≠ .keying := by rcases hm with hm | hm <;> simp [hm]
  rw [updateWords_eq] at hp ⊢
  rw [run_commands (fun t len ht => exec_update (ht ▸ hm) len) rfl hs hlen hp, foldl_payload_message message]

/-- KEY commands pass their bytes to `key_byte` (R181). -/
theorem run_keys {s : State} {cs : List (List Byte)} {rest : List Event} (hm : s.mode = .keying)
    (hs : ready s.toEngine) (hlen : ∀ c ∈ cs, c.length ≤ 65535)
    (hp : s.pending = presentAll (cs.flatMap keyWords) ++ rest) :
    runSteps (cs.flatMap keyWords).length s =
      .next { s with toEngine := cs.flatten.foldl keyByte s.toEngine, pending := rest } := by
  rw [keyWords_eq] at hp ⊢
  rw [run_commands (fun t len ht => exec_key ht len) hm hs hlen hp, foldl_payload_keying hm]

/-! ### UPDATE and the cut of a message (R161, R164, R186) -/

/-- Settles O2: the exceptions by the header laws, the net effect as that of one UPDATE in `run_updates`. -/
theorem updateAbsorbsItsPayload : Obligations.UpdateAbsorbsItsPayload := by
  refine fun s => ⟨fun var rsv len h => ?_, fun len hm => ?_, fun len hm => ?_, fun m rest hm hs hlen hp => ?_⟩
  · exact headerStep_reserved .update s (h.elim (fun hv => .inr (.inl ⟨rfl, hv⟩)) .inl)
  · have illegal : modeAllows s.mode (Instr.update len).opcode = false := modeAllows_message_false (.inl rfl) hm
    exact ⟨headerStep_badMode (.update len) illegal, exec_badMode illegal⟩
  · exact ⟨headerStep_encode (.update len) s, exec_update hm len⟩
  · have one : [m].flatMap updateWords = updateWords m := List.flatMap_singleton ..
    have run := run_updates (cs := [m]) hm hs (by simpa using hlen) (by rw [one]; exact hp)
    rw [one, List.flatten_singleton] at run
    exact run

/-- Settles O8: by `run_updates` and `run_keys` the end state is a function of the bytes in order. -/
theorem chunkingLeavesNoTrace : Obligations.ChunkingLeavesNoTrace := by
  intro s cs ds rest hs hcs hds same
  refine ⟨fun hm => ⟨_, run_updates hm hs hcs rfl, ?_, rfl⟩, fun hm => ⟨_, run_keys hm hs hcs rfl, ?_, rfl⟩⟩
  · rw [same]; exact run_updates hm hs hds rfl
  · rw [same]; exact run_keys hm hs hds rfl

/-! ### The buffer append (R152) -/

/-- Settles O38: the two branches of the append, `pushByte_room` and `pushByte_full`. -/
theorem absorbAppendsAndDispatches : Obligations.AbsorbAppendsAndDispatches := by
  refine fun x b => ⟨fun room => ⟨pushByte_room b _ room, ?_⟩, fun full => ?_⟩
  · rw [absorbPad, absorb, pushByte_room b _ room, pushByte_room b _ room]
  · have block : putByte x.buf x.fill b = x.buf.set 63 b := by simp only [putByte, full]
    have absorbed : absorb x b = dispatch x (x.buf.set 63 b) (x.len + 512) := by
      rw [absorb, pushByte_full b _ full, block]
    have padded : absorbPad x b = dispatch x (x.buf.set 63 b) x.len := by
      rw [absorbPad, pushByte_full b _ full, block]
    rw [absorbed, padded]
    exact ⟨rfl, BitVec.toNat_add .., rfl⟩

/-! ### The total length (R154) -/

/-- Settles O39: `absorbAll_init` gives the registers of a message's context, `totalBits_absorbAll` its length. -/
theorem totalLengthCountsTheBitsAbsorbed : Obligations.TotalLengthCountsTheBitsAbsorbed := by
  rintro v m x rfl
  have context := absorbAll_init v m
  exact ⟨rfl, totalBits_absorbAll v m, congrArg (fun y => y.fill.val) context, congrArg HashCtx.len context⟩

/-! ### The padding rule (R155) -/

/-- Up to 55 buffered bytes, the padding fills the block up. -/
theorem padZeros_of_le {f : Fin 64} (h : f.val ≤ 55) : padZeros f = 55 - f.val := by
  rw [padZeros]; omega

/-- From 56 on, the padding fills the block up and puts 56 zero bytes before the length in a second one. -/
theorem padding_split {f : Fin 64} (h : 56 ≤ f.val) (l : Length) :
    padding f l = (0x80 :: List.replicate (63 - f.val) 0) ++ (List.replicate 56 0 ++ bytes64 l) := by
  have zeros : padZeros f = (63 - f.val) + 56 := by rw [padZeros]; omega
  rw [padding, zeros, List.replicate_add, List.append_assoc, List.cons_append]

theorem finalize_one_block {x : HashCtx} (h : x.fill.val ≤ 55) :
    finalize x = dispatch x (padBlock (x.buf.toList.take x.fill.val ++ padding x.fill (totalBits x))) x.len := by
  rw [finalize_eq]
  exact pushAll_full id x _ (by rw [padding_length, padZeros_of_le h]; omega)

theorem finalize_two_blocks {x : HashCtx} (h : 56 ≤ x.fill.val) :
    finalize x =
      dispatch
        (dispatch x (padBlock (x.buf.toList.take x.fill.val ++ 0x80 :: List.replicate (63 - x.fill.val) 0)) x.len)
        (padBlock (List.replicate 56 0 ++ bytes64 (totalBits x))) x.len := by
  have full : x.fill.val + (0x80 :: List.replicate (63 - x.fill.val) (0 : Byte)).length = 64 := by
    rw [List.length_cons, List.length_replicate]; omega
  rw [finalize_eq, padding_split h, pushAll_append, pushAll_full id x _ full]
  exact pushAll_block id _ _ rfl rfl

/-- Settles O40: by the fill count, `finalize_one_block` or `finalize_two_blocks`. -/
theorem finalizeDispatchesThePaddedTail : Obligations.FinalizeDispatchesThePaddedTail := by
  rintro x d l rfl rfl
  by_cases h : x.fill.val ≤ 55
  · rw [if_pos h, finalize_one_block h, padding, padZeros_of_le h]
    rfl
  · rw [if_neg h, finalize_two_blocks (by omega)]
    rfl

/-! ### The digest (R157, 20_memory.md R65) -/

/-- Byte `j` of a word, from the most significant (00_scope.md R10). -/
theorem bytes32_getElem? (w : Word) {j : Nat} (hj : j < 4) :
    (bytes32 w)[j]? = some (w.extractLsb' (24 - 8 * j) 8) := by
  simp [bytes32_eq_map, hj]

/-- Byte `4i + j` of a sequence of words is byte `j` of word `i`. -/
theorem flatMap_bytes32_getElem? (ws : List Word) (i : Nat) {j : Nat} (hj : j < 4) :
    (ws.flatMap bytes32)[4 * i + j]? = ws[i]?.map fun w => w.extractLsb' (24 - 8 * j) 8 := by
  induction ws generalizing i with
  | nil => rfl
  | cons w ws ih =>
    rw [List.flatMap_cons]
    cases i with
    | zero =>
      rw [List.getElem?_append_left (by rw [bytes32_length]; omega), Nat.mul_zero, Nat.zero_add,
        bytes32_getElem? w hj]
      rfl
    | succ i =>
      rw [List.getElem?_append_right (by rw [bytes32_length]; omega), bytes32_length,
        show 4 * (i + 1) + j - 4 = 4 * i + j by omega, ih, List.getElem?_cons_succ]

theorem digestOf_getElem? (h : HashState) {v : Variant} (i : Fin 8) (hi : i.val < digestWords v) :
    (digestOf h v)[i.val]? = some h[i] := by
  simp [digestOf, hi]

/-- Settles O42: lengths by `digestBytes_length`, bytes by `flatMap_bytes32_getElem?`. -/
theorem digestIsTheLeadingWordsBigEndian : Obligations.DigestIsTheLeadingWordsBigEndian := by
  intro h
  have all : digestOf h .sha256 = h.toList := List.take_of_length_le (by simp [digestWords])
  refine ⟨by rw [digestBytes, all], digestBytes_length h .sha256, rfl, digestBytes_length h .sha224,
    fun v i j hi => ?_, fun v => by cases v <;> rfl⟩
  rw [digestBytes, flatMap_bytes32_getElem? _ _ j.isLt, digestOf_getElem? h i hi]
  rfl

/-! ### HINIT and FINAL (R160, R162) -/

/-- Settles O1: the exceptions by the header laws, the effect by `exec_hinit`. -/
theorem hinitStartsAHashContext : Obligations.HinitStartsAHashContext := by
  refine fun s var rsv len => ⟨fun h => ?_, fun h => ?_, fun v hv => ?_⟩
  · exact headerStep_reserved .hinit s (h.imp_right fun hl => .inr ⟨rfl, hl⟩)
  · have malformed : (Instr.hinit var).wellFormed = false := by simpa [Instr.wellFormed, validVariantCode] using h
    exact ⟨headerStep_badVariant (.hinit var) s malformed, exec_badVariant malformed⟩
  · exact ⟨headerStep_encode (.hinit var) s, exec_hinit (variantOfCode_some.2 hv) s⟩

theorem finalEngine_hash {e : Engine} (h : e.mode = .hash) (v : Variant) :
    finalEngine v e = consumeContext (loadQueue v (finalize e.ctx0).h e) := by
  rw [finalEngine_eq, if_neg (by simp [h])]

/-- Settles O3: the exceptions by the header laws, the effect by `exec_final`; the queue it loads is not empty. -/
theorem finalQueuesTheDigestOfAHashContext : Obligations.FinalQueuesTheDigestOfAHashContext := by
  refine fun s => ⟨fun var rsv len h => ?_, fun hm => ?_, fun v hm hv => ?_⟩
  · refine headerStep_reserved .final s ?_
    rcases h with hv | hr | hl
    · exact .inr (.inl ⟨rfl, hv⟩)
    · exact .inl hr
    · exact .inr (.inr ⟨rfl, hl⟩)
  · have illegal : modeAllows s.mode Instr.final.opcode = false := modeAllows_message_false (.inr rfl) hm
    exact ⟨headerStep_badMode .final illegal, exec_badMode illegal⟩
  · have queued : inWordEnabled (consumeContext (loadQueue v (finalize s.ctx0).h s.toEngine)) = false := by
      cases v <;> simp [inWordEnabled, queueCount]
    have executed := exec_final (.inl hm) hv
    rw [finalEngine_hash hm] at executed
    refine ⟨headerStep_encode .final s, _, executed, by cases v <;> rfl, queued, fun e enabled => ?_⟩
    obtain ⟨-, empty⟩ := (inWordEnabled_iff e).1 enabled
    exact empty

end Sys2Proof.Machine
end

section
/-! PROOFS. The HMAC family (42_hmac.md): the key registers (R182) and the commands KINIT, KDONE and FINAL in
MODE = HMAC (R180, R183, R185). -/

namespace Sys2Proof.Machine

/-! ### The key registers (R182) -/

theorem keyByte_keyCnt_val (e : Engine) (b : Byte) :
    (keyByte e b).keyCnt.val = if e.keyCnt.val < 65 then e.keyCnt.val + 1 else e.keyCnt.val := by
  rw [keyByte_keyCnt]
  split <;> rfl

/-- From the 65th byte on `KEYCNT` is no index of `KEYBLK`, which stays. -/
theorem keyByte_keyBlk_get (e : Engine) (b : Byte) (i : Fin 64) :
    (keyByte e b).keyBlk[i] = if i.val = e.keyCnt.val then b else e.keyBlk[i] := by
  rw [keyByte_keyBlk]
  by_cases slot : e.keyCnt.val < 64
  · rw [dif_pos slot, putByte, Fin.getElem_fin, Vector.getElem_set]
    simp only [eq_comm, Fin.getElem_fin]
  · rw [dif_neg slot, if_neg (by omega)]

/-- Settles O43: one byte by the laws of `keyByte`, all bytes since KINIT by `foldl_keyByte`. -/
theorem keyRegistersAfterTheKeyBytes : Obligations.KeyRegistersAfterTheKeyBytes := by
  refine ⟨fun e b => ⟨_, rfl, keyByte_keyCnt_val e b, keyByte_keyBlk_get e b, rfl⟩, fun v e key => ?_⟩
  exact ⟨_, foldl_keyByte v e key, rfl, fun i => padBlock_get key i i.isLt, rfl⟩

/-! ### KINIT (R180) -/

/-- Settles O5: the exceptions by the header laws, the effect by `exec_kinit`. -/
theorem kinitStartsKeyEntry : Obligations.KinitStartsKeyEntry := by
  refine fun s var rsv len => ⟨fun h => ?_, fun h => ?_, fun v hv => ?_⟩
  · exact headerStep_reserved .kinit s (h.imp_right fun hl => .inr ⟨rfl, hl⟩)
  · have malformed : (Instr.kinit var).wellFormed = false := by simpa [Instr.wellFormed, validVariantCode] using h
    exact ⟨headerStep_badVariant (.kinit var) s malformed, exec_badVariant malformed⟩
  · exact ⟨headerStep_encode (.kinit var) s, exec_kinit (variantOfCode_some.2 hv) s⟩

/-! ### Commands without an operand (30_encoding.md R93 steps 2 to 4) -/

/-- Where a command uses neither `VAR` nor `LEN`, every field but the opcode must be zero. -/
theorem headerStep_reserved_no_operand {op : Opcode} (hv : op.usesVar = false) (hl : op.usesLen = false) (s : State)
    {var : BitVec 4} {rsv : BitVec 8} {len : BitVec 16} (h : var ≠ 0 ∨ rsv ≠ 0 ∨ len ≠ 0) :
    headerStep (headerWord op.code var rsv len) s = .next { s with fault := true, cause := some .reservedField } := by
  refine headerStep_reserved op s ?_
  rcases h with var_ne | rsv_ne | len_ne
  · exact .inr (.inl ⟨hv, var_ne⟩)
  · exact .inl rsv_ne
  · exact .inr (.inr ⟨hl, len_ne⟩)

/-! ### KDONE (R183) -/

/-- KDONE seeds both contexts with one block each, `K0` with the inner or the outer pad (R183 steps 2 and 3). -/
theorem seedContexts_eq (v : Variant) (e : Engine) :
    seedContexts v e = { e with
      ctx0 := {
        h := compress (iv v) ((normalizedKey v e).map (· ^^^ ipadByte)), buf := zeroBlock, fill := 0, len := 512 }
      ctx1 := {
        h := compress (iv v) ((normalizedKey v e).map (· ^^^ opadByte)), buf := zeroBlock, fill := 0, len := 512 }
      keyBlk := zeroBlock
      keyCnt := 0
      mode := .hmac } := by
  rw [seedContexts, absorbAll_xorPad, absorbAll_xorPad]

/-- Settles O7: the exceptions by the header laws, the effect by `exec_kdone` with the two blocks of
`seedContexts_eq`. -/
theorem kdoneSeedsBothContexts : Obligations.KdoneSeedsBothContexts := by
  refine fun s => ⟨fun var rsv len h => ?_, fun hm => ?_, fun v k0 hm hv hk => ?_⟩
  · exact headerStep_reserved_no_operand (op := .kdone) rfl rfl s h
  · have illegal : modeAllows s.mode Instr.kdone.opcode = false :=
      (modeAllows_false_iff _ .kdone).2 (.inr ⟨by decide, hm⟩)
    exact ⟨headerStep_badMode .kdone illegal, exec_badMode illegal⟩
  · obtain rfl : k0 = normalizedKey v s.toEngine := by cases v <;> exact hk
    have executed := exec_kdone hm hv
    rw [seedContexts_eq] at executed
    exact ⟨headerStep_encode .kdone s, executed⟩

/-! ### FINAL in MODE = HMAC (R185) -/

theorem finalEngine_hmac {e : Engine} (h : e.mode = .hmac) (v : Variant) :
    finalEngine v e = consumeContext (loadQueue v (tagState v e) e) := by
  rw [finalEngine_eq, if_pos h]

/-- Settles O4: the exceptions by the header laws, the effect by `exec_final`, which queues the words of the outer
context finalized after the inner digest. -/
theorem finalQueuesTheTagOfAnHmacContext : Obligations.FinalQueuesTheTagOfAnHmacContext := by
  refine fun s => ⟨fun var rsv len h => ?_, fun hm => ?_, fun v d o hm hv hd ho => ?_⟩
  · exact headerStep_reserved_no_operand (op := .final) rfl rfl s h
  · exact exec_badMode (modeAllows_message_false (.inr rfl) hm)
  · obtain rfl : d = digestBytes (finalize s.ctx0).h v := by cases v <;> exact hd
    have tag : o.h = tagState v s.toEngine := congrArg HashCtx.h ho
    have executed := exec_final (.inr hm) hv
    rw [finalEngine_hmac hm, ← tag] at executed
    exact ⟨headerStep_encode .final s, executed.trans (by cases v <;> rfl)⟩

end Sys2Proof.Machine
end

section
/-! PROOFS. The exceptions family (60_exceptions.md): the legality matrix of R204 with the mode machine of
41_hash_context.md R163. -/

namespace Sys2Proof.Machine

/-! ### Where a command leads -/

theorem variantOfCode_of_valid {var : BitVec 4} (h : validVariantCode var = true) :
    ∃ v, variantOfCode var = some v := by
  rw [← Option.isSome_iff_exists]
  revert var
  decide

/-- BAD_MODE in the mode `m`: nothing changes but `FAULT` and `CAUSE` (R204, R206). -/
theorem exec_illegal {i : Instr} {s : State} {m : Mode} (hm : s.mode = m) (h : modeAllows m i.opcode = false) :
    exec i s = .next { s with mode := m, fault := true, cause := some .badMode } := by
  subst hm
  exact exec_badMode h

/-- FINAL keeps `FAULT` and `CAUSE` and leads to IDLE, from a hash and from an HMAC context (R162, R185 step 5). -/
theorem exec_final_idle {s : State} (hm : s.mode = .hash ∨ s.mode = .hmac) (hv : s.variant ≠ none) :
    ∃ t : State, exec .final s = .next t ∧ t.mode = .idle ∧ t.fault = s.fault ∧ t.cause = s.cause := by
  obtain ⟨v, hv⟩ := Option.ne_none_iff_exists'.1 hv
  refine ⟨_, exec_final hm hv, ?_⟩
  rw [finalEngine_eq]
  exact ⟨rfl, rfl, rfl⟩

/-- KDONE keeps `FAULT` and `CAUSE` and leads to HMAC (R183 step 4). -/
theorem exec_kdone_hmac {s : State} (hm : s.mode = .keying) (hv : s.variant ≠ none) :
    ∃ t : State, exec .kdone s = .next t ∧ t.mode = .hmac ∧ t.fault = s.fault ∧ t.cause = s.cause := by
  obtain ⟨v, hv⟩ := Option.ne_none_iff_exists'.1 hv
  exact ⟨_, exec_kdone hm hv, rfl, rfl, rfl⟩

/-! ### What changes the mode -/

@[simp] theorem payloadStep_mode (w : Word) (e : Engine) : (payloadStep w e).mode = e.mode := by
  obtain ⟨_, _, frame⟩ := payloadStep_frame w e
  rw [frame]

/-- A header whose effect changes the mode decodes to a command: the exceptions leave the mode as it is (R206). -/
theorem HeaderEffect.mode_eq_or_decodes {w : Word} {e e' : Engine} (effect : HeaderEffect w e e') :
    e'.mode = e.mode ∨ ∃ i, decode w = .ok i := by
  cases effect with
  | raised c => exact .inl rfl
  | hashStarted v var hd hv => exact .inr ⟨_, hd⟩
  | keyStarted v var hd hv => exact .inr ⟨_, hd⟩
  | message len hd hm => exact .inr ⟨_, hd⟩
  | key len hd hm => exact .inr ⟨_, hd⟩
  | seeded v hd hm hv => exact .inr ⟨_, hd⟩
  | finished v hd hm hv => exact .inr ⟨_, hd⟩

/-- A step that is neither a `Reset` nor a header of a command keeps the mode (R163). -/
theorem step_mode {s t : State} (h : step s = .next t) :
    t.mode = s.mode ∨ (∃ rest, s.pending = .reset :: rest ∧ t.mode = .idle) ∨
    (∃ w rest i, s.pending = .inWord w :: rest ∧ s.rxCnt = 0 ∧ decode w = .ok i) := by
  rcases step_cases h with ⟨rfl, -⟩ | ⟨rest, hp, rfl⟩ | ⟨rest, -, -, rfl⟩ | ⟨w, rest, -, -, -, -, rfl⟩ |
    ⟨w, rest, e, hp, -, -, hr, effect, -, rfl⟩
  · exact .inl rfl
  · exact .inr (.inl ⟨rest, hp, rfl⟩)
  · exact .inl (popQueue_mode s.toEngine)
  · exact .inl (payloadStep_mode w s.toEngine)
  · rcases effect.mode_eq_or_decodes with same | ⟨i, hd⟩
    · exact .inl same
    · exact .inr (.inr ⟨w, rest, i, hp, hr, hd⟩)

/-! ### R163 and R204 -/

/-- Settles O17: the matrix by the commands and the modes, each legal entry by the command's law and each other one by
`exec_illegal`; the mode of a step by `step_mode`. -/
theorem commandsMoveTheModeMachine : Obligations.CommandsMoveTheModeMachine := by
  refine ⟨fun s i wf live => ?_, fun s t h => step_mode h⟩
  cases i with
  | hinit var =>
    obtain ⟨v, hv⟩ := variantOfCode_of_valid wf
    cases s.mode <;> exact ⟨_, exec_hinit hv s, rfl, rfl, rfl⟩
  | kinit var =>
    obtain ⟨v, hv⟩ := variantOfCode_of_valid wf
    cases s.mode <;> exact ⟨_, exec_kinit hv s, rfl, rfl, rfl⟩
  | update len =>
    cases hm : s.mode with
    | idle | keying => exact exec_illegal (i := .update len) hm rfl
    | hash => exact ⟨_, exec_update (.inl hm) len, hm, rfl, rfl⟩
    | hmac => exact ⟨_, exec_update (.inr hm) len, hm, rfl, rfl⟩
  | final =>
    cases hm : s.mode with
    | idle | keying => exact exec_illegal (i := .final) hm rfl
    | hash => exact exec_final_idle (.inl hm) (live (by simp [hm]))
    | hmac => exact exec_final_idle (.inr hm) (live (by simp [hm]))
  | key len =>
    cases hm : s.mode with
    | keying => exact ⟨_, exec_key hm len, hm, rfl, rfl⟩
    | idle | hash | hmac => exact exec_illegal (i := .key len) hm rfl
  | kdone =>
    cases hm : s.mode with
    | keying => exact exec_kdone_hmac hm (live (by simp [hm]))
    | idle | hash | hmac => exact exec_illegal (i := .kdone) hm rfl

end Sys2Proof.Machine
end

section
/-! PROOFS. The header decoder and encoder (30_encoding.md R90, R93, R95, R98): the two round trips, the rows of the
opcode map, and the header words written out. -/

namespace Sys2Proof.Machine

/-! ### The round trips (R90, R95) -/

/-- Settles O14: `encode` is the header word of the command's fields, which `decode_headerWord` reads back. -/
theorem decodeOfEncodeIsTheCommand : Obligations.DecodeOfEncodeIsTheCommand :=
  decode_headerWord

/-- Settles O15: a word that decodes has the fields of its command, and a word is its fields. -/
theorem encodeOfDecodeIsTheWord : Obligations.EncodeOfDecodeIsTheWord := by
  intro w i hd
  obtain ⟨opc, var, rsv, len⟩ := (decode_eq_ok_iff w i).1 hd
  rw [encode, ← opc, ← var, ← rsv, ← len, headerWord_fields]

/-! ### The rows of the opcode map (R95) -/

/-- A row whose mask leaves `VAR` free selects the headers of a command that uses `VAR` alone. -/
theorem mask_var_iff {cmd : BitVec 4 → Instr} {op : Opcode} (hop : ∀ var, (cmd var).opcode = op)
    (hvar : ∀ var, (cmd var).varField = var) (hlen : ∀ var, (cmd var).lenField = 0) (w : Word) :
    w &&& headerWord (.allOnes 4) 0 (.allOnes 8) (.allOnes 16) = headerWord op.code 0 0 0 ↔
      ∃ var, decode w = .ok (cmd var) := by
  simp only [mask_test, BitVec.and_allOnes, decode_eq_ok_iff, hop, hvar, hlen]
  simp

/-- A row whose mask leaves `LEN` free selects the headers of a command that uses `LEN` alone. -/
theorem mask_len_iff {cmd : BitVec 16 → Instr} {op : Opcode} (hop : ∀ len, (cmd len).opcode = op)
    (hvar : ∀ len, (cmd len).varField = 0) (hlen : ∀ len, (cmd len).lenField = len) (w : Word) :
    w &&& headerWord (.allOnes 4) (.allOnes 4) (.allOnes 8) 0 = headerWord op.code 0 0 0 ↔
      ∃ len, decode w = .ok (cmd len) := by
  simp only [mask_test, BitVec.and_allOnes, decode_eq_ok_iff, hop, hvar, hlen]
  simp

/-- A row whose mask leaves nothing free selects the one header of a command without operand. -/
theorem mask_all_iff {i : Instr} (hvar : i.varField = 0) (hlen : i.lenField = 0) (w : Word) :
    w &&& .allOnes 32 = headerWord i.opcode.code 0 0 0 ↔ decode w = .ok i := by
  rw [BitVec.and_allOnes, decode_eq_ok_iff, hvar, hlen, ← headerWord_inj, headerWord_fields]

theorem varField_of_decode {w : Word} {i : Instr} (hd : decode w = .ok i) : i.varField = headerVar w := by
  obtain ⟨-, var, -, -⟩ := (decode_eq_ok_iff w i).1 hd
  exact var.symm

theorem lenField_of_decode {w : Word} {i : Instr} (hd : decode w = .ok i) : i.lenField = headerLen w := by
  obtain ⟨-, -, -, len⟩ := (decode_eq_ok_iff w i).1 hd
  exact len.symm

/-- Settles O13: each row by the mask law of its command's operand, and the operands by the fields of the word. -/
theorem opcodeMapSelectsTheHeaders : Obligations.OpcodeMapSelectsTheHeaders := by
  refine fun w => ⟨?_, ?_, ?_, ?_, ?_, ?_, fun var hd => ?_, fun len hd => ?_⟩
  · exact mask_var_iff (cmd := .hinit) (op := .hinit) (fun _ => rfl) (fun _ => rfl) (fun _ => rfl) w
  · exact mask_len_iff (cmd := .update) (op := .update) (fun _ => rfl) (fun _ => rfl) (fun _ => rfl) w
  · exact mask_all_iff (i := .final) rfl rfl w
  · exact mask_var_iff (cmd := .kinit) (op := .kinit) (fun _ => rfl) (fun _ => rfl) (fun _ => rfl) w
  · exact mask_len_iff (cmd := .key) (op := .key) (fun _ => rfl) (fun _ => rfl) (fun _ => rfl) w
  · exact mask_all_iff (i := .kdone) rfl rfl w
  · rcases hd with hd | hd <;> exact varField_of_decode hd
  · rcases hd with hd | hd <;> exact lenField_of_decode hd

/-- Settles O16: ten fixed words, decoded. -/
theorem headerWordsOfTheMap : Obligations.HeaderWordsOfTheMap := by
  unfold Obligations.HeaderWordsOfTheMap
  decide

/-! ### The header step (R92, R93) -/

/-- Settles O11: the word is taken as a header, and a header that decodes is executed. -/
theorem stepRunsTheDecodedCommand : Obligations.StepRunsTheDecodedCommand := by
  intro s w rest i hp hs hd
  obtain ⟨hf, hq, hr⟩ := hs
  rw [step_header hp hf hq hr, headerStep_ok hd]

end Sys2Proof.Machine
end

section
/-! PROOFS. The invariants of the state (10_state.md R50): the reset state meets them and every event keeps them. -/

namespace Sys2Proof.Machine

/-! ### The key count (R182) -/

theorem foldl_keyByte_keyCnt_val (e : Engine) (bs : List Byte) :
    (bs.foldl keyByte e).keyCnt.val = min (e.keyCnt.val + bs.length) 65 := by
  have := e.keyCnt.isLt
  induction bs generalizing e with
  | nil => simp only [List.foldl_nil, List.length_nil]; omega
  | cons b bs ih =>
    rw [List.foldl_cons, ih _ (keyByte e b).keyCnt.isLt, keyByte_keyCnt_val, List.length_cons]
    split <;> omega

/-! ### The items of `Inv` in the form the proofs use -/

theorem Inv.blockForm {e : Engine} (inv : Inv e) (c : CtxIndex) : (ctxOf e c).BlockForm :=
  ⟨inv.lenBlocks c, inv.bufTail c⟩

/-- An idle engine without a fault and with an empty queue has every register at its reset value (R50 items 2, 9,
10). -/
theorem Inv.eq_reset {e : Engine} (inv : Inv e) (hm : e.mode = .idle) (hf : e.fault = false) (hq : e.txCnt = 0) :
    e = Engine.reset := by
  obtain ⟨variant, ctx0, ctx1, keyBlk, keyCnt, rxCnt⟩ := inv.idle hm
  obtain ⟨txRd, txq⟩ := inv.drained hq
  have cause : e.cause = none := by
    by_contra raised
    rw [inv.faultCause.2 raised] at hf
    cases hf
  obtain ⟨⟩ := e
  simp only at *
  subst_vars
  rfl

theorem inv_reset : Inv Engine.reset where
  lenBlocks c := by rw [ctxOf_reset]; exact blockForm_zero.1
  bufTail c := by rw [ctxOf_reset]; exact blockForm_zero.2
  idle _ := ⟨rfl, rfl, rfl, rfl, rfl, rfl⟩
  live h := absurd rfl h
  outerClear h := by rcases h with h | h <;> cases h
  keyClear _ := ⟨rfl, rfl⟩
  keying h := by cases h
  hmac h := by cases h
  queued h := absurd rfl h
  drained _ := ⟨rfl, rfl⟩
  delivered i _ := by simp [Engine.reset, zeroWords]
  faultCause := by simp [Engine.reset]
  faultQuiet h := by cases h

/-- An idle engine claims no content for its contexts. -/
theorem genuine_of_idle {e : Engine} (idle : e.mode = .idle) : Genuine e where
  hash h := by rw [idle] at h; cases h
  keying h := by rw [idle] at h; cases h
  hmac h := by rw [idle] at h; cases h

/-- Settles O26, by `inv_reset`; after reset no context is live. -/
theorem resetStateMeetsTheInvariants : Obligations.ResetStateMeetsTheInvariants :=
  ⟨inv_reset, genuine_of_idle rfl⟩

/-! ### `OutWord` (R108) -/

/-- Delivering the word at `TXRD` keeps the queue's items: the slot joins the zero ones (R50 items 8 and 9, log 9). -/
theorem inv_popQueue {e : Engine} (inv : Inv e) (hq : e.txCnt ≠ 0) : Inv (popQueue e) := by
  obtain ⟨hm, hr, hf, hends⟩ := inv.queued hq
  have hpos : 0 < e.txCnt.val := Fin.pos_iff_ne_zero.2 hq
  have hrd : e.txRd.val < 8 := e.txRd.isLt
  have advances (more : e.txCnt.val - 1 ≠ 0) : (popQueue e).txRd.val = e.txRd.val + 1 := by
    rw [popQueue_txRd, if_neg more, Fin.val_add]
    show (e.txRd.val + 1) % 8 = _
    omega
  have slots (i : Fin 8) (hi : i.val ≤ e.txRd.val ∨ e.txRd.val + e.txCnt.val ≤ i.val) : (popQueue e).txq[i] = 0 := by
    rw [popQueue_get]
    split
    · rfl
    · rename_i other
      exact inv.delivered i (hi.imp_left fun h => lt_of_le_of_ne h fun same => other same.symm)
  exact {
    lenBlocks := inv.lenBlocks
    bufTail := inv.bufTail
    idle := inv.idle
    live := inv.live
    outerClear := inv.outerClear
    keyClear := inv.keyClear
    keying := inv.keying
    hmac := inv.hmac
    faultCause := inv.faultCause
    faultQuiet := fun fault => by rw [popQueue_fault, hf] at fault; cases fault
    queued := fun left => by
      have more : e.txCnt.val - 1 ≠ 0 := fun last => left (Fin.ext last)
      refine ⟨hm, hr, hf, ?_⟩
      rw [advances more, popQueue_txCnt]
      simp only
      omega
    drained := fun empty => by
      have last : e.txCnt.val - 1 = 0 := congrArg Fin.val empty
      refine ⟨by rw [popQueue_txRd, if_pos last], Vector.ext fun i hi => ?_⟩
      rw [show zeroWords[i] = 0 by simp [zeroWords]]
      exact slots ⟨i, hi⟩ (by simp only; omega)
    delivered := fun i hi => by
      refine slots i ?_
      by_cases last : e.txCnt.val - 1 = 0
      · omega
      · rw [Fin.lt_def, advances last, popQueue_txCnt] at hi
        simp only at hi
        omega }

/-! ### Payload (R94) -/

/-- The bytes of a payload word go to `CTX[0]`, and in KEYING to the key registers (R50 items 1 and 6). -/
theorem inv_payloadStep {e : Engine} (inv : Inv e) (w : Word) (hq : e.txCnt = 0) (hr : e.rxCnt ≠ 0) :
    Inv (payloadStep w e) := by
  obtain ⟨kb, kc, frame⟩ := payloadStep_frame w e
  have live := inv.mode_ne_idle hr
  have form (c : CtxIndex) : (ctxOf (payloadStep w e) c).BlockForm := by
    cases c with
    | zero =>
      show (payloadStep w e).ctx0.BlockForm
      rw [payloadStep_ctx0]
      exact blockForm_absorbAll (inv.blockForm .zero) _
    | one =>
      show (payloadStep w e).ctx1.BlockForm
      rw [payloadStep_ctx1]
      exact inv.blockForm .one
  have keyClear (hm : e.mode ≠ .keying) : (payloadStep w e).keyBlk = zeroBlock ∧ (payloadStep w e).keyCnt = 0 := by
    rw [payloadStep_message w hm]
    exact inv.keyClear hm
  have keying (hm : e.mode = .keying) : ∃ (v : Variant) (key : List Byte), e.variant = some v ∧
      (payloadStep w e).keyCnt.val = min key.length 65 ∧
      totalBits (payloadStep w e).ctx0 = BitVec.ofNat 64 (8 * key.length) ∧
      (payloadStep w e).ctx0 = absorbAll (ctxInit v) key := by
    obtain ⟨v, key, hv, hcnt, -, hctx⟩ := inv.keying hm
    have absorbed : (payloadStep w e).ctx0 = absorbAll (ctxInit v) (key ++ payloadBytes w e.rxCnt) := by
      rw [payloadStep_ctx0, hctx, absorbAll_append]
    have counted : (payloadStep w e).keyCnt.val = min (key ++ payloadBytes w e.rxCnt).length 65 := by
      rw [payloadStep_keying w hm]
      simp only [foldl_keyByte_keyCnt_val, hcnt, List.length_append]
      omega
    exact ⟨v, _, hv, counted, by rw [absorbed, totalBits_absorbAll], absorbed⟩
  rw [frame] at form keyClear keying ⊢
  exact {
    lenBlocks := fun c => (form c).1
    bufTail := fun c => (form c).2
    idle := fun idle => absurd idle live
    live := inv.live
    outerClear := inv.outerClear
    keyClear := keyClear
    keying := keying
    hmac := inv.hmac
    queued := fun words => absurd hq words
    drained := inv.drained
    delivered := inv.delivered
    faultCause := inv.faultCause
    faultQuiet := inv.faultQuiet }

/-! ### Headers (R93) -/

/-- Trap entry needs an empty queue (R50 items 8 and 10). -/
theorem inv_raised {e : Engine} (inv : Inv e) (hq : e.txCnt = 0) (c : Cause) :
    Inv { e with fault := true, cause := some c } :=
  { inv with
    queued := fun words => absurd hq words
    faultCause := by simp
    faultQuiet := fun _ => hq }

/-- An announced payload length needs a live context (R50 item 2) and an empty queue (item 8). -/
theorem inv_announced {e : Engine} (inv : Inv e) (hm : e.mode ≠ .idle) (hq : e.txCnt = 0) (len : BitVec 16) :
    Inv { e with rxCnt := len } :=
  { inv with
    idle := fun idle => absurd idle hm
    queued := fun words => absurd hq words }

/-- HINIT and KINIT: a fresh context in HASH or KEYING, everything else cleared (R160, R180). -/
theorem inv_startContext {e : Engine} (inv : Inv e) (hq : e.txCnt = 0) (v : Variant) {m : Mode}
    (hm : m = .hash ∨ m = .keying) : Inv (startContext v m e) := by
  have form (c : CtxIndex) : (ctxOf (startContext v m e) c).BlockForm := by
    cases c with
    | zero => exact blockForm_ctxInit v
    | one => exact blockForm_zero
  exact {
    lenBlocks := fun c => (form c).1
    bufTail := fun c => (form c).2
    idle := fun idle => by rcases hm with rfl | rfl <;> cases idle
    live := fun _ => by simp
    outerClear := fun _ => rfl
    keyClear := fun _ => ⟨rfl, rfl⟩
    keying := fun _ => ⟨v, [], rfl, rfl, totalBits_absorbAll v [], rfl⟩
    hmac := fun hmac => by rcases hm with rfl | rfl <;> cases hmac
    queued := fun words => absurd hq words
    drained := inv.drained
    delivered := inv.delivered
    faultCause := inv.faultCause
    faultQuiet := inv.faultQuiet }

/-- KDONE: both contexts hold one padded key block, and the key registers are cleared (R183, R50 item 7). -/
theorem inv_seedContexts {e : Engine} (inv : Inv e) (hq : e.txCnt = 0) {v : Variant} (hv : e.variant = some v) :
    Inv (seedContexts v e) := by
  have form (c : CtxIndex) : (ctxOf (seedContexts v e) c).BlockForm := by
    cases c <;> exact blockForm_absorbAll (blockForm_ctxInit v) _
  exact {
    lenBlocks := fun c => (form c).1
    bufTail := fun c => (form c).2
    idle := fun idle => by cases idle
    live := fun _ => by rw [seedContexts_variant, hv]; simp
    outerClear := fun other => by rcases other with h | h <;> cases h
    keyClear := fun _ => ⟨rfl, rfl⟩
    keying := fun keying => by cases keying
    hmac := fun _ => by rw [seedContexts_eq]; exact ⟨rfl, rfl⟩
    queued := fun words => absurd hq words
    drained := inv.drained
    delivered := inv.delivered
    faultCause := inv.faultCause
    faultQuiet := inv.faultQuiet }

/-- SHA-224 leaves the eighth slot as it was, so it stays zero in an empty queue (R162). -/
theorem queueWords_zero_slots (v : Variant) (h : HashState) (i : Fin 8) (hi : digestWords v ≤ i.val) :
    (queueWords v h zeroWords)[i] = 0 := by
  cases v with
  | sha224 =>
    obtain rfl : i = 7 := by
      have : 7 ≤ i.val := hi
      omega
    rfl
  | sha256 =>
    have : 8 ≤ i.val := hi
    omega

/-- FINAL: the context is consumed and 7 or 8 words stand at the start of the queue (R162, R185, R50 item 8). -/
theorem inv_finalEngine {e : Engine} (inv : Inv e) (hf : e.fault = false) (hq : e.txCnt = 0) (hr : e.rxCnt = 0)
    (v : Variant) : Inv (finalEngine v e) := by
  obtain ⟨-, empty⟩ := inv.drained hq
  have loaded : (queueCount v).val = 7 ∨ (queueCount v).val = 8 := by cases v <;> decide
  rw [finalEngine_eq]
  exact {
    lenBlocks := fun c => by cases c <;> exact blockForm_zero.1
    bufTail := fun c => by cases c <;> exact blockForm_zero.2
    idle := fun _ => ⟨rfl, rfl, rfl, rfl, rfl, hr⟩
    live := fun live => absurd rfl live
    outerClear := fun other => by rcases other with h | h <;> cases h
    keyClear := fun _ => ⟨rfl, rfl⟩
    keying := fun keying => by cases keying
    hmac := fun hmac => by cases hmac
    queued := fun _ => ⟨rfl, hr, hf, by simpa using loaded⟩
    drained := fun unloaded => by cases v <;> cases unloaded
    delivered := fun i hi => by
      simp only [consumeContext_txq, consumeContext_txRd, consumeContext_txCnt, loadQueue_txq, loadQueue_txRd,
        loadQueue_txCnt, queueCount_val, empty] at hi ⊢
      refine queueWords_zero_slots v _ i ?_
      rcases hi with below | above
      · exact absurd below (Fin.not_lt_zero i)
      · simpa using above
    faultCause := inv.faultCause
    faultQuiet := fun fault => by
      have raised : e.fault = true := fault
      rw [hf] at raised
      cases raised }

/-- Each effect of a header keeps the invariants (R93). -/
theorem inv_headerEffect {e e' : Engine} {w : Word} (inv : Inv e) (hf : e.fault = false) (hq : e.txCnt = 0)
    (hr : e.rxCnt = 0) (effect : HeaderEffect w e e') : Inv e' := by
  cases effect with
  | raised c => exact inv_raised inv hq c
  | hashStarted v => exact inv_startContext inv hq v (.inl rfl)
  | keyStarted v => exact inv_startContext inv hq v (.inr rfl)
  | message len _ hm => exact inv_announced inv (by rcases hm with hm | hm <;> simp [hm]) hq len
  | key len _ hm => exact inv_announced inv (by simp [hm]) hq len
  | seeded v _ _ hv => exact inv_seedContexts inv hq hv
  | finished v => exact inv_finalEngine inv hf hq hr v

/-! ### Every step and every run -/

/-- Settles O27: `step_keeps` with one lemma for each event. -/
theorem everyStepKeepsTheStateInvariants : Obligations.EveryStepKeepsTheStateInvariants := by
  intro s t inv h
  refine step_keeps inv_reset (fun e he hq => inv_popQueue he hq) (fun e w he _ hq hr => ?_)
    (fun e e' w he hf hq hr effect => inv_headerEffect he hf hq hr effect) inv h
  exact inv_payloadStep he w hq hr

theorem runSteps_inv {s t : State} {n : Nat} (inv : Inv s.toEngine) (h : runSteps n s = .next t) :
    Inv t.toEngine := by
  induction n generalizing s with
  | zero => cases h; exact inv
  | succ n ih =>
    cases hs : step s with
    | next s' => exact ih (everyStepKeepsTheStateInvariants s s' inv hs) (by rwa [runSteps_succ hs] at h)
    | fault f => rw [runSteps_fault hs] at h; cases h
    | refused r => rw [runSteps_refused hs] at h; cases h

end Sys2Proof.Machine
end

section
/-! PROOFS. What a live context holds (10_state.md R22, R50 item 6; 42_hmac.md R183, R186): every event keeps a context
equal to the absorbed bytes of some message or key. -/

namespace Sys2Proof.Machine

/-! ### The key registers while key bytes come (R182) -/

/-- One more key byte after those of `key`: `KEYBLK` holds the first 64 of them. -/
theorem keyByte_keyBlk_append {e : Engine} {key : List Byte} (hblk : e.keyBlk = padBlock key)
    (hcnt : e.keyCnt.val = min key.length 65) (b : Byte) : (keyByte e b).keyBlk = padBlock (key ++ [b]) := by
  ext1 i hi
  have byte : (keyByte e b).keyBlk[i] = if i = e.keyCnt.val then b else e.keyBlk[i] := keyByte_keyBlk_get e b ⟨i, hi⟩
  rw [byte, hblk, hcnt, padBlock_get, padBlock_get]
  rcases lt_trichotomy i key.length with before | rfl | after
  · rw [if_neg (by omega), List.getD_append _ _ _ _ before]
  · rw [if_pos (by omega), List.getD_append_right _ _ _ _ le_rfl, Nat.sub_self]
    rfl
  · rw [if_neg (by omega), List.getD_eq_default _ _ (by omega),
      List.getD_eq_default _ _ (by rw [List.length_append, List.length_singleton]; omega)]

theorem foldl_keyByte_keyBlk {e : Engine} {key : List Byte} (hblk : e.keyBlk = padBlock key)
    (hcnt : e.keyCnt.val = min key.length 65) (bs : List Byte) :
    (bs.foldl keyByte e).keyBlk = padBlock (key ++ bs) := by
  induction bs generalizing e key with
  | nil => rw [List.append_nil]; exact hblk
  | cons b bs ih =>
    have counted : (keyByte e b).keyCnt.val = min (key ++ [b]).length 65 := by
      rw [keyByte_keyCnt_val, hcnt, List.length_append, List.length_singleton]
      split <;> omega
    rw [List.foldl_cons, ih (keyByte_keyBlk_append hblk hcnt b) counted, List.append_assoc, List.singleton_append]

/-- KDONE's `K0` where the key registers and `CTX[0]` hold a key (R183 step 1, R184). -/
theorem normalizedKey_eq {e : Engine} {v : Variant} {key : List Byte} (hcnt : e.keyCnt.val = min key.length 65)
    (hblk : e.keyBlk = padBlock key) (hctx : e.ctx0 = absorbAll (ctxInit v) key) :
    normalizedKey v e = keyBlockOf v key := by
  have received := normalizedKey_foldl v e key
  rw [foldl_keyByte] at received
  rw [normalizedKey, hcnt, hblk, hctx]
  exact received

/-! ### Payload (R94) -/

/-- The bytes of a payload word are appended to those of the message or key. -/
theorem genuine_payloadStep {e : Engine} (g : Genuine e) (w : Word) : Genuine (payloadStep w e) where
  hash hm := by
    rw [payloadStep_mode] at hm
    obtain ⟨v, m, hv, hctx⟩ := g.hash hm
    rw [payloadStep_message w (by simp [hm])]
    exact ⟨v, m ++ payloadBytes w e.rxCnt, hv, by rw [hctx, absorbAll_append]⟩
  keying hm := by
    rw [payloadStep_mode] at hm
    obtain ⟨v, key, hv, hcnt, hblk, hctx⟩ := g.keying hm
    obtain ⟨kb, kc, frame⟩ := payloadStep_frame w e
    have variant : (payloadStep w e).variant = some v := by rw [frame]; exact hv
    have absorbed : (payloadStep w e).ctx0 = absorbAll (ctxInit v) (key ++ payloadBytes w e.rxCnt) := by
      rw [payloadStep_ctx0, hctx, absorbAll_append]
    rw [payloadStep_keying w hm] at variant absorbed ⊢
    refine ⟨v, _, variant, ?_, foldl_keyByte_keyBlk hblk hcnt _, absorbed⟩
    simp only [foldl_keyByte_keyCnt_val, hcnt, List.length_append]
    omega
  hmac hm := by
    rw [payloadStep_mode] at hm
    obtain ⟨v, key, m, hv, hinner, houter⟩ := g.hmac hm
    rw [payloadStep_message w (by simp [hm])]
    exact ⟨v, key, m ++ payloadBytes w e.rxCnt, hv,
      by rw [hinner, ← absorbAll_append, List.append_assoc], houter⟩

/-! ### Headers (R93) -/

/-- HINIT starts the empty message. -/
theorem genuine_hashStarted (v : Variant) (e : Engine) : Genuine (startContext v .hash e) where
  hash _ := ⟨v, [], rfl, rfl⟩
  keying h := by cases h
  hmac h := by cases h

/-- KINIT starts the empty key. -/
theorem genuine_keyStarted (v : Variant) (e : Engine) : Genuine (startContext v .keying e) where
  hash h := by cases h
  keying _ := ⟨v, [], rfl, rfl, by rw [← writeList_zeroBlock, writeList_nil]; rfl, rfl⟩
  hmac h := by cases h

/-- KDONE turns a key into the two contexts of its padded form, with the empty message (R183). -/
theorem genuine_seedContexts {e : Engine} (g : Genuine e) (hm : e.mode = .keying) {v : Variant}
    (hv : e.variant = some v) : Genuine (seedContexts v e) where
  hash h := by cases h
  keying h := by cases h
  hmac _ := by
    obtain ⟨v', key, hv', hcnt, hblk, hctx⟩ := g.keying hm
    obtain rfl : v = v' := Option.some.inj (hv.symm.trans hv')
    refine ⟨v, key, [], hv, ?_, ?_⟩
    · rw [seedContexts_ctx0, normalizedKey_eq hcnt hblk hctx, List.append_nil]
    · rw [seedContexts_ctx1, normalizedKey_eq hcnt hblk hctx]

/-- Each effect of a header keeps the contexts genuine. -/
theorem genuine_headerEffect {e e' : Engine} {w : Word} (g : Genuine e) (effect : HeaderEffect w e e') :
    Genuine e' := by
  cases effect with
  | raised c => exact ⟨g.hash, g.keying, g.hmac⟩
  | hashStarted v => exact genuine_hashStarted v e
  | keyStarted v => exact genuine_keyStarted v e
  | message len => exact ⟨g.hash, g.keying, g.hmac⟩
  | key len => exact ⟨g.hash, g.keying, g.hmac⟩
  | seeded v _ hm hv => exact genuine_seedContexts g hm hv
  | finished v => exact genuine_of_idle (by rw [finalEngine_eq]; rfl)

/-- Settles O28: `step_keeps` with one lemma for each event; `OutWord` reaches no context. -/
theorem everyStepKeepsTheContextsGenuine : Obligations.EveryStepKeepsTheContextsGenuine := by
  intro s t g h
  exact step_keeps (genuine_of_idle rfl) (fun e ge _ => ⟨ge.hash, ge.keying, ge.hmac⟩)
    (fun e w ge _ _ _ => genuine_payloadStep ge w) (fun e e' w ge _ _ _ effect => genuine_headerEffect ge effect) g h

end Sys2Proof.Machine
end

section
/-! PROOFS. Where a step stops (60_exceptions.md R207), and what the host can see of the secrets (R215): but for an
executed FINAL, a step does not read the contexts and the key registers into anything else. -/

namespace Sys2Proof.Machine

/-! ### Where a step stops -/

/-- Everything a step can answer: a next state, the halt of log 4, or the stop of log 3. -/
theorem step_answers (s : State) :
    (∃ t : State, step s = .next t) ∨
    (s.fault = true ∧ step s = .fault (.contractViolation s.cause) ∧ ∀ rest, s.pending ≠ .reset :: rest) ∨
    (step s = .fault .variantAbsent ∧ s.mode ≠ .idle ∧ s.variant = none) := by
  have waits (hs : step s = hold s) (hp : ∀ rest, s.pending ≠ .reset :: rest) :
      (∃ t : State, step s = .next t) ∨
      (s.fault = true ∧ step s = .fault (.contractViolation s.cause) ∧ ∀ rest, s.pending ≠ .reset :: rest) := by
    cases hf : s.fault with
    | false => exact .inl ⟨s, hs.trans (hold_running hf)⟩
    | true => exact .inr ⟨rfl, hs.trans (hold_halted hf), hp⟩
  cases hp : s.pending with
  | nil => exact (waits (step_nothing hp) (by simp [hp])).imp_right fun h => .inl (hp ▸ h)
  | cons ev rest =>
    cases ev with
    | reset => exact .inl ⟨_, step_reset hp⟩
    | outWord =>
      by_cases hq : s.txCnt = 0
      · exact (waits (step_outWord_hold hp hq) (by simp [hp])).imp_right fun h => .inl (hp ▸ h)
      · exact .inl ⟨_, step_outWord hp hq⟩
    | inWord w =>
      by_cases enabled : s.fault = false ∧ s.txCnt = 0
      · obtain ⟨hf, hq⟩ := enabled
        by_cases hr : s.rxCnt = 0
        · rw [step_header hp hf hq hr]
          rcases headerStep_cases w { s with pending := rest } with ⟨e, -, executed⟩ | ⟨stopped, hm, hv⟩
          · exact .inl ⟨_, executed⟩
          · exact .inr (.inr ⟨stopped, hm, hv⟩)
        · exact .inl ⟨_, step_payload hp hf hq hr⟩
      · have disabled : s.fault = true ∨ s.txCnt ≠ 0 := by
          rw [not_and_or, Bool.not_eq_false] at enabled
          exact enabled
        exact (waits (step_inWord_hold hp disabled) (by simp [hp])).imp_right fun h => .inl (hp ▸ h)

/-- Settles O29: the stop of the absent variant needs a live mode, which R50 item 3 gives a variant. -/
theorem onlyAContractViolationStopsTheMachine : Obligations.OnlyAContractViolationStopsTheMachine := by
  intro s inv
  rcases step_answers s with goes | halted | ⟨-, live, absent⟩
  · exact .inl goes
  · exact .inr halted
  · exact absurd absent (inv.live live)

/-! ### The state without its secrets -/

/-- The engine with the registers that the host has no read path to at fixed values (R215). -/
def Engine.hideSecrets (e : Engine) : Engine :=
  { e with ctx0 := HashCtx.zero, ctx1 := HashCtx.zero, keyBlk := zeroBlock, keyCnt := 0 }

/-- The state with its engine's secrets hidden. -/
def State.hideSecrets (s : State) : State := { s with toEngine := s.toEngine.hideSecrets }

/-- What of an answer the host can tell apart. -/
def hideAnswer : Result → Result
  | .next s => .next s.hideSecrets
  | .fault f => .fault f
  | .refused r => .refused r

theorem sameButSecrets_iff (s t : State) : sameButSecrets s t ↔ s.hideSecrets = t.hideSecrets := by
  simp only [sameButSecrets, State.hideSecrets, Engine.hideSecrets, State.mk.injEq, Engine.mk.injEq]
  tauto

/-- Equal visible answers of two steps: next states that agree but for the secrets, or the same fault. -/
theorem sameButSecrets_of_hideAnswer {s t : State} (h : hideAnswer (step s) = hideAnswer (step t)) :
    (∃ s' t' : State, step s = .next s' ∧ step t = .next t' ∧ sameButSecrets s' t') ∨
    (∃ f : Fault, step s = .fault f ∧ step t = .fault f) := by
  cases hs : step s with
  | next s' =>
    cases ht : step t with
    | next t' =>
      rw [hs, ht] at h
      exact .inl ⟨s', t', rfl, rfl, (sameButSecrets_iff s' t').2 (Host.Outcome.next.inj h)⟩
    | fault f => rw [hs, ht] at h; cases h
    | refused r => rw [hs, ht] at h; cases h
  | fault f =>
    cases ht : step t with
    | next t' => rw [hs, ht] at h; cases h
    | fault f' => rw [hs, ht] at h; exact .inr ⟨f, rfl, by rw [Host.Outcome.fault.inj h]⟩
    | refused r => rw [hs, ht] at h; cases h
  | refused r =>
    rcases step_answers s with ⟨s', goes⟩ | ⟨-, stops, -⟩ | ⟨stops, -⟩
    · rw [hs] at goes; cases goes
    · rw [hs] at stops; cases stops
    · rw [hs] at stops; cases stops

/-! ### What a step shows of the secrets -/

theorem hideAnswer_hold (s : State) : hideAnswer (hold s.hideSecrets) = hideAnswer (hold s) := by
  cases hf : s.fault with
  | false => rw [hold_running hf, hold_running (s := s.hideSecrets) hf]; rfl
  | true => rw [hold_halted hf, hold_halted (s := s.hideSecrets) hf]; rfl

theorem hideSecrets_payloadStep (w : Word) (e : Engine) :
    (payloadStep w e.hideSecrets).hideSecrets = (payloadStep w e).hideSecrets := by
  obtain ⟨_, _, hidden⟩ := payloadStep_frame w e.hideSecrets
  obtain ⟨_, _, plain⟩ := payloadStep_frame w e
  rw [hidden, plain]
  rfl

theorem hideSecrets_seedContexts (v : Variant) (e : Engine) :
    (seedContexts v e.hideSecrets).hideSecrets = (seedContexts v e).hideSecrets := by
  simp only [Engine.hideSecrets, seedContexts]

/-- A command's exceptions do not depend on the secrets, and only FINAL writes what it computes from them to another
register. -/
theorem hideAnswer_exec {i : Instr} {s : State} (h : i = .final → modeAllows s.mode .final = false) :
    hideAnswer (exec i s.hideSecrets) = hideAnswer (exec i s) := by
  by_cases wf : i.wellFormed = false
  · rw [exec_badVariant wf, exec_badVariant wf]; rfl
  by_cases illegal : modeAllows s.mode i.opcode = false
  · rw [exec_badMode illegal, exec_badMode (s := s.hideSecrets) illegal]; rfl
  have legal : modeAllows s.mode i.opcode = true := by simpa using illegal
  have hm := legal
  rw [modeAllows_eq] at hm
  cases i with
  | hinit var =>
    obtain ⟨v, hv⟩ := variantOfCode_of_valid (by simpa [Instr.wellFormed] using wf)
    rw [exec_hinit hv, exec_hinit hv]; rfl
  | kinit var =>
    obtain ⟨v, hv⟩ := variantOfCode_of_valid (by simpa [Instr.wellFormed] using wf)
    rw [exec_kinit hv, exec_kinit hv]; rfl
  | update len =>
    have live : s.mode = .hash ∨ s.mode = .hmac := by simpa [Instr.opcode] using hm
    rw [exec_update live, exec_update (s := s.hideSecrets) live]; rfl
  | key len =>
    have keying : s.mode = .keying := by simpa [Instr.opcode] using hm
    rw [exec_key keying, exec_key (s := s.hideSecrets) keying]; rfl
  | kdone =>
    have keying : s.mode = .keying := by simpa [Instr.opcode] using hm
    cases hv : s.variant with
    | none =>
      rw [exec_variantAbsent (.inr rfl) legal hv, exec_variantAbsent (s := s.hideSecrets) (.inr rfl) legal hv]
    | some v =>
      rw [exec_kdone keying hv, exec_kdone (s := s.hideSecrets) keying hv]
      exact congrArg (fun e : Engine => Host.Outcome.next { s with toEngine := e })
        (hideSecrets_seedContexts v s.toEngine)
  | final => exact absurd (h rfl) illegal

/-- The next event is a FINAL that is taken as a header in HASH or HMAC. -/
def ExecutesFinal (s : State) : Prop :=
  ∃ w rest, s.pending = .inWord w :: rest ∧ ready s.toEngine ∧ (s.mode = .hash ∨ s.mode = .hmac) ∧
    decode w = .ok .final

theorem executesFinal_hideSecrets (s : State) : ExecutesFinal s.hideSecrets ↔ ExecutesFinal s := Iff.rfl

theorem hideAnswer_headerStep {w : Word} {s : State}
    (h : decode w = .ok .final → modeAllows s.mode .final = false) :
    hideAnswer (headerStep w s.hideSecrets) = hideAnswer (headerStep w s) := by
  cases hd : decode w with
  | error r => rw [headerStep_error hd, headerStep_error hd]; rfl
  | ok i =>
    rw [headerStep_ok hd, headerStep_ok hd]
    exact hideAnswer_exec fun hi => h (hi ▸ hd)

/-- The visible answer of a step is that of the step with the secrets hidden. -/
theorem hideAnswer_step {s : State} (h : ¬ ExecutesFinal s) :
    hideAnswer (step s.hideSecrets) = hideAnswer (step s) := by
  cases hp : s.pending with
  | nil => rw [step_nothing hp, step_nothing (s := s.hideSecrets) hp, hideAnswer_hold]
  | cons ev rest =>
    cases ev with
    | reset => rw [step_reset hp, step_reset (s := s.hideSecrets) hp]; rfl
    | outWord =>
      by_cases hq : s.txCnt = 0
      · rw [step_outWord_hold hp hq, step_outWord_hold (s := s.hideSecrets) hp hq, hideAnswer_hold]
      · rw [step_outWord hp hq, step_outWord (s := s.hideSecrets) hp hq]; rfl
    | inWord w =>
      by_cases disabled : s.fault = true ∨ s.txCnt ≠ 0
      · rw [step_inWord_hold hp disabled, step_inWord_hold (s := s.hideSecrets) hp disabled, hideAnswer_hold]
      · obtain ⟨hf, hq⟩ : s.fault = false ∧ s.txCnt = 0 := by simpa using disabled
        by_cases hr : s.rxCnt = 0
        · rw [step_header hp hf hq hr, step_header (s := s.hideSecrets) hp hf hq hr]
          refine hideAnswer_headerStep (s := { s with pending := rest }) fun hd => ?_
          rw [modeAllows_eq, ← Bool.not_eq_true]
          exact fun legal => h ⟨w, rest, hp, ⟨hf, hq, hr⟩, by simpa using legal, hd⟩
        · rw [step_payload hp hf hq hr, step_payload (s := s.hideSecrets) hp hf hq hr]
          exact congrArg (fun e : Engine => Host.Outcome.next { s with toEngine := e, pending := rest })
            (hideSecrets_payloadStep w s.toEngine)

/-- Settles O30: two states with the same visible part have, by `hideAnswer_step`, the same visible answer. -/
theorem secretsReachTheHostOnlyThroughFinal : Obligations.SecretsReachTheHostOnlyThroughFinal := by
  intro s t same noFinal
  rw [sameButSecrets_iff] at same
  have hs : ¬ ExecutesFinal s := fun ⟨w, rest, hp, hready, hm, hd⟩ => noFinal w rest hp hready hm hd
  have ht : ¬ ExecutesFinal t := by
    rw [← executesFinal_hideSecrets, ← same]
    exact hs
  apply sameButSecrets_of_hideAnswer
  rw [← hideAnswer_step hs, ← hideAnswer_step ht, same]

end Sys2Proof.Machine
end

section
/-! PROOFS. The events and the outputs (00_scope.md R13, 20_memory.md R73, 30_encoding.md R92, R108, R110): what each
event does, what raises, and how the queue drains. -/

namespace Sys2Proof.Machine

/-! ### The outputs (10_state.md R40, 30_encoding.md R110) -/

theorem outValid_iff (e : Engine) : outValid e = true ↔ 0 < e.txCnt.val := by
  rw [outValid, outWordEnabled_iff, Fin.val_pos_iff, Fin.pos_iff_ne_zero]

/-- Settles O32: the codes by the values of the registers, the queue's outputs by `outValid_iff`. -/
theorem outputsShowTheRegisters : Obligations.OutputsShowTheRegisters := by
  refine fun e => ⟨?_, ?_, ?_, ?_, outValid_iff e, fun words => if_pos ((outValid_iff e).2 words), fun empty => ?_⟩
  · rw [stFault]; cases e.fault <;> decide
  · rw [stMode]; cases e.mode <;> rfl
  · rw [stVariant]; rcases e.variant with _ | v
    · rfl
    · cases v <;> rfl
  · rw [stCause]; rcases e.cause with _ | c
    · rfl
    · cases c <;> rfl
  · exact if_neg (by rw [outValid_iff, empty]; decide)

/-! ### Each event (R92, R108, 70_reset_and_hazards.md R231) -/

theorem hold_next {s t : State} (h : hold s = .next t) : t = s := by
  cases hf : s.fault with
  | false => rw [hold_running hf] at h; cases h; rfl
  | true => rw [hold_halted hf] at h; cases h

/-- Settles O18, by the three laws of an offered word. -/
theorem inWordIsTakenOnlyWhenEnabled : Obligations.InWordIsTakenOnlyWhenEnabled := by
  refine fun s w rest hp => ⟨fun ⟨hf, hq, hr⟩ => step_payload hp hf hq hr, fun ⟨hf, hq, hr⟩ => step_header hp hf hq hr,
    fun disabled t h => hold_next ?_⟩
  rw [← step_inWord_hold hp disabled, h]

/-- Settles O20, by the two laws of `OutWord`: `TXCNT` falls to 0 exactly from 1. -/
theorem outWordDeliversAndZeroesItsSlot : Obligations.OutWordDeliversAndZeroesItsSlot := by
  refine fun s rest hp => ⟨fun hq => ⟨_, step_outWord hp hq, rfl, ?_⟩, fun hq t h => hold_next ?_⟩
  · have last : s.txCnt.val - 1 = 0 ↔ s.txCnt = 1 := by
      have := Fin.pos_iff_ne_zero.2 hq
      rw [Fin.ext_iff, Fin.val_one]
      omega
    simp only [deliverWord, popQueue, last]
  · rw [← step_outWord_hold hp hq, h]

/-- Settles O22: the reset law of a step, and the outputs of the reset engine. -/
theorem resetSetsEveryRegister : Obligations.ResetSetsEveryRegister := by
  intro s rest hp
  exact ⟨_, step_reset hp, rfl, rfl, rfl, rfl, rfl, rfl, rfl, rfl⟩

/-- Settles O23, by the cases of `step_cases`. -/
theorem eventsAreTakenOneAtATimeInOrder : Obligations.EventsAreTakenOneAtATimeInOrder := by
  intro s t h
  rcases step_cases h with ⟨rfl, -, noReset⟩ | ⟨rest, hp, rfl⟩ | ⟨rest, hp, hq, rfl⟩ | ⟨w, rest, hp, hf, hq, -, rfl⟩ |
    ⟨w, rest, e, hp, hf, hq, -, -, -, rfl⟩
  · refine .inl ⟨rfl, ?_⟩
    cases hp : t.pending with
    | nil => exact .inl rfl
    | cons ev rest => exact .inr ⟨ev, rest, rfl, fun hev => noReset rest (hev ▸ hp)⟩
  · exact .inr (.inr (.inr ⟨rest, hp, rfl, rfl⟩))
  · exact .inr (.inr (.inl ⟨rest, hp, rfl, hq, rfl⟩))
  · exact .inr (.inl ⟨w, rest, hp, rfl, rfl, hf, hq⟩)
  · exact .inr (.inl ⟨w, rest, hp, rfl, rfl, hf, hq⟩)

/-! ### The exception (60_exceptions.md R200, R206 to R208) -/

theorem payloadStep_fault (w : Word) (e : Engine) : (payloadStep w e).fault = e.fault := by
  obtain ⟨_, _, frame⟩ := payloadStep_frame w e
  rw [frame]

/-- A header keeps `FAULT`, or it takes the exception, which changes the flags alone. -/
theorem HeaderEffect.fault_eq_or_raised {w : Word} {e e' : Engine} (effect : HeaderEffect w e e') :
    e'.fault = e.fault ∨ ∃ c, e' = { e with fault := true, cause := some c } := by
  cases effect with
  | raised c => exact .inr ⟨c, rfl⟩
  | finished v => exact .inl (by rw [finalEngine_eq]; rfl)
  | hashStarted | keyStarted | message | key | seeded => exact .inl rfl

/-- Settles O24: of the cases of `step_cases`, only a header turns `FAULT` on. -/
theorem onlyHeadersRaiseAndOnlyTheFlagsChange : Obligations.OnlyHeadersRaiseAndOnlyTheFlagsChange := by
  intro s t h before after
  rcases step_cases h with ⟨rfl, -⟩ | ⟨rest, -, rfl⟩ | ⟨rest, -, -, rfl⟩ | ⟨w, rest, -, -, -, -, rfl⟩ |
    ⟨w, rest, e, hp, -, hq, hr, effect, -, rfl⟩
  · rw [before] at after; cases after
  · cases after
  · exact absurd (before.symm.trans after) Bool.false_ne_true
  · exact absurd (before.symm.trans ((payloadStep_fault w s.toEngine).symm.trans after)) Bool.false_ne_true
  · rcases effect.fault_eq_or_raised with same | ⟨c, rfl⟩
    · exact absurd (before.symm.trans (same.symm.trans after)) Bool.false_ne_true
    · exact ⟨w, rest, c, hp, hr, hq, rfl⟩

/-- A halted engine whose queue is empty can take no event but `Reset` (R207). -/
theorem step_halted {s : State} (hf : s.fault = true) (hq : s.txCnt = 0) (hp : ∀ rest, s.pending ≠ .reset :: rest) :
    step s = .fault (.contractViolation s.cause) := by
  rw [← hold_halted hf]
  cases hev : s.pending with
  | nil => exact step_nothing hev
  | cons ev rest =>
    cases ev with
    | reset => exact absurd hev (hp rest)
    | inWord w => exact step_inWord_hold hev (.inl hf)
    | outWord => exact step_outWord_hold hev hq

/-- Settles O25: the halt by `step_halted`, the way out by the reset law, and that there is no other by
`step_cases`. -/
theorem faultIsLeftOnlyByReset : Obligations.FaultIsLeftOnlyByReset := by
  refine fun s hf => ⟨fun hp hq n => runSteps_fault (step_halted hf hq hp) n, fun rest hp => step_reset hp,
    fun t h cleared => ?_⟩
  have running (h0 : s.fault = false) : ∃ rest, s.pending = .reset :: rest := by rw [hf] at h0; cases h0
  rcases step_cases h with ⟨-, h0, -⟩ | ⟨rest, hp, -⟩ | ⟨rest, -, -, rfl⟩ | ⟨w, rest, -, h0, -⟩ | ⟨w, rest, e, -, h0, -⟩
  · exact running h0
  · exact ⟨rest, hp⟩
  · exact running cleared
  · exact running h0
  · exact running h0

/-! ### Draining the queue (10_state.md R37) -/

/-- The word at `TXRD`, and after it the words from `TXRD + 1` on, which zeroing the slot leaves as they are. -/
theorem drop_take_succ (q : Vector Word 8) (rd : Fin 8) (n : Nat) :
    (q.toList.drop rd.val).take (n + 1) =
      q[rd] :: ((q.set rd.val 0 rd.isLt).toList.drop (rd.val + 1)).take n := by
  rw [Vector.toList_set, List.drop_set_of_lt (Nat.lt_succ_self _), List.drop_eq_getElem_cons (by simp),
    List.take_succ_cons]
  simp

/-- Taking all the words of an idle engine without a fault: induction on their number, with `Inv.eq_reset` at its
end. -/
theorem run_takeAll {s : State} {rest : List Event} {n : Nat} (inv : Inv s.toEngine) (hm : s.mode = .idle)
    (hf : s.fault = false) (hn : s.txCnt.val = n) (hp : s.pending = takeAll n ++ rest) :
    runSteps n s = .next { Engine.reset with
      pending := rest
      outStream := s.outStream ++ (s.txq.toList.drop s.txRd.val).take n } := by
  induction n generalizing s with
  | zero =>
    obtain ⟨e, p, out⟩ := s
    obtain rfl : e = Engine.reset := inv.eq_reset hm hf (Fin.ext hn)
    obtain rfl : p = rest := hp
    rw [List.take_zero, List.append_nil]
    rfl
  | succ n ih =>
    have hq : s.txCnt ≠ 0 := fun empty => by rw [empty] at hn; cases hn
    have left : (popQueue s.toEngine).txCnt.val = n := by rw [popQueue_txCnt]; simp only; omega
    have words : ((popQueue s.toEngine).txq.toList.drop (popQueue s.toEngine).txRd.val).take n =
        ((popQueue s.toEngine).txq.toList.drop (s.txRd.val + 1)).take n := by
      rcases Nat.eq_zero_or_pos n with rfl | more
      · rfl
      · obtain ⟨-, -, -, hends⟩ := inv.queued hq
        rw [popQueue_txRd, if_neg (by omega), Fin.val_add, Fin.val_one, Nat.mod_eq_of_lt (by omega)]
    have taken := step_outWord (rest := takeAll n ++ rest) hp hq
    have run := ih (s := deliverWord { s with pending := takeAll n ++ rest }) (inv_popQueue inv hq) hm hf left rfl
    rw [runSteps_succ taken, run]
    simp only [deliverWord]
    rw [words, popQueue_txq, drop_take_succ, List.append_assoc, List.singleton_append]

/-- Settles O21: words are queued only in an idle engine without a fault. -/
theorem queueDrainsInOrderToTheResetState : Obligations.QueueDrainsInOrderToTheResetState := by
  intro s rest inv hq hp
  obtain ⟨hm, -, hf, -⟩ := inv.queued hq
  exact run_takeAll inv hm hf rfl hp

end Sys2Proof.Machine
end

section
/-! PROOFS. Byte order and lengths (00_scope.md R10, 20_memory.md R69; 30_encoding.md R91, R94), and the padding state
machine (41_hash_context.md R156). -/

namespace Sys2Proof.Machine

/-! ### Byte order (R10, R63, R64, R69) -/

theorem bytes64_eq_map (l : Length) : bytes64 l = (List.range 8).map fun i => l.extractLsb' (56 - 8 * i) 8 := rfl

theorem bytes64_getElem? (l : Length) {j : Nat} (hj : j < 8) :
    (bytes64 l)[j]? = some (l.extractLsb' (56 - 8 * j) 8) := by
  simp [bytes64_eq_map, hj]

/-- Four neighbouring byte slices put together are one slice of 32 bits. -/
theorem be32_slices (l : Length) (lo : Nat) :
    be32 (l.extractLsb' (lo + 24) 8) (l.extractLsb' (lo + 16) 8) (l.extractLsb' (lo + 8) 8) (l.extractLsb' lo 8) =
      l.extractLsb' lo 32 := by
  apply BitVec.eq_of_toNat_eq
  simp only [be32_toNat, toNat_slice, Nat.pow_add, ← Nat.div_div_eq_div_mul]
  omega

/-- Byte `j` of a length field that follows 56 bytes in a block (R64). -/
theorem padBlock_length_byte (l : Length) {d : List Byte} (hd : d.length = 56) {i : Nat} (j : Nat) (hi : i = 56 + j)
    (hj : j < 8) : (padBlock (d ++ bytes64 l))[i] = l.extractLsb' (56 - 8 * j) 8 := by
  subst hi
  rw [padBlock_get, List.getD_append_right _ _ _ _ (by omega), hd, Nat.add_sub_cancel_left,
    List.getD_eq_getElem?_getD, bytes64_getElem? l hj]
  rfl

/-- A word of a length field that follows 56 bytes in a block, `k` bytes from its start (R69). -/
theorem blockWord_length (l : Length) {d : List Byte} (hd : d.length = 56) {t : Fin 16} (k : Nat)
    (ht : 4 * t.val = 56 + k) (hk : k ≤ 4) :
    blockWord (padBlock (d ++ bytes64 l)) t = l.extractLsb' (32 - 8 * k) 32 := by
  rw [blockWord, padBlock_length_byte l hd k ht (by omega), padBlock_length_byte l hd (k + 1) (by omega) (by omega),
    padBlock_length_byte l hd (k + 2) (by omega) (by omega), padBlock_length_byte l hd (k + 3) (by omega) (by omega),
    ← be32_slices l (32 - 8 * k)]
  congr 2 <;> omega

/-- Settles O46: the laws of `be32`, `bytes32` and `bytes64`; words 14 and 15 are four bytes of the length each. -/
theorem bytesAndWordsConvertBigEndian : Obligations.BytesAndWordsConvertBigEndian := by
  refine ⟨fun b0 b1 b2 b3 => ⟨be32_toNat b0 b1 b2 b3, bytes32_be32 b0 b1 b2 b3⟩, fun w => rfl,
    fun l j => bytes64_getElem? l j.isLt, fun l d hd => ⟨?_, ?_⟩⟩
  · exact blockWord_length l hd 0 rfl (by decide)
  · exact blockWord_length l hd 4 rfl (by decide)

/-! ### The words of a payload (R91, R94) -/

/-- Payload words, whatever they are, count `RXCNT` down by four and reach `CTX[0]` and the key registers alone. -/
theorem run_words {s : State} {ws : List Word} {rest : List Event} (hf : s.fault = false) (hq : s.txCnt = 0)
    (hp : s.pending = presentAll ws ++ rest) (hlen : ws.length ≤ (s.rxCnt.toNat + 3) / 4) :
    ∃ t : State, runSteps ws.length s = .next t ∧ t.rxCnt.toNat = s.rxCnt.toNat - 4 * ws.length ∧
      t = { s with
        ctx0 := t.ctx0, keyBlk := t.keyBlk, keyCnt := t.keyCnt, rxCnt := t.rxCnt, pending := rest } := by
  induction ws generalizing s with
  | nil =>
    obtain rfl : s.pending = rest := hp
    exact ⟨s, rfl, rfl, rfl⟩
  | cons w ws ih =>
    rw [List.length_cons] at hlen
    have hr : s.rxCnt ≠ 0 := (toNat_ne_zero_iff _).1 (by omega)
    have taken := step_payload (rest := presentAll ws ++ rest) hp hf hq hr
    obtain ⟨kb, kc, frame⟩ := payloadStep_frame w s.toEngine
    rw [frame] at taken
    have rx := payloadRest_toNat s.rxCnt
    obtain ⟨t, run, left, ht⟩ := ih (s := { s with
      toEngine := { s.toEngine with
        ctx0 := absorbAll s.ctx0 (payloadBytes w s.rxCnt), keyBlk := kb, keyCnt := kc, rxCnt := payloadRest s.rxCnt }
      pending := presentAll ws ++ rest }) hf hq rfl (by simp only [rx]; omega)
    refine ⟨t, (runSteps_succ taken _).trans run, ?_, ht⟩
    rw [left, List.length_cons, rx]
    omega

/-- A header after which payload is expected is that of an UPDATE or a KEY that announced it (R91). -/
theorem HeaderEffect.announced {w : Word} {e e' : Engine} (effect : HeaderEffect w e e') (hr : e.rxCnt = 0)
    (expected : e'.rxCnt ≠ 0) : decode w = .ok (.update e'.rxCnt) ∨ decode w = .ok (.key e'.rxCnt) := by
  cases effect with
  | message len hd => exact .inl hd
  | key len hd => exact .inr hd
  | finished v => rw [finalEngine_eq] at expected; exact absurd hr expected
  | raised | hashStarted | keyStarted | seeded => exact absurd hr expected

theorem payloadWords_le (i : Instr) : i.payloadWords ≤ 16384 := by
  have := i.lenField.isLt
  rw [Instr.payloadWords, Instr.payloadBytes]
  omega

theorem payloadWords_of_no_len {i : Instr} (h : i.lenField = 0) : i.payloadWords = 0 := by
  rw [Instr.payloadWords, Instr.payloadBytes, h]
  rfl

/-- The header of an UPDATE or KEY that the mode allows loads `RXCNT` with its length (R161, R181). -/
theorem exec_announces {s : State} {i : Instr}
    (legal : ((∃ len, i = .update len) ∧ (s.mode = .hash ∨ s.mode = .hmac)) ∨
      ((∃ len, i = .key len) ∧ s.mode = .keying)) : exec i s = .next { s with rxCnt := i.lenField } := by
  rcases legal with ⟨⟨len, rfl⟩, hm⟩ | ⟨⟨len, rfl⟩, hm⟩
  · exact exec_update hm len
  · exact exec_key hm len

/-- Settles O47: the header loads `RXCNT`, `run_words` counts it down; what else a header can do leaves it 0. -/
theorem payloadEndsAfterItsWords : Obligations.PayloadEndsAfterItsWords := by
  refine ⟨fun s i ws rest hs legal hp hlen => ?_, fun s t w rest hs hp h expected => ?_, fun len => ⟨rfl, rfl⟩,
    fun var => ⟨payloadWords_of_no_len rfl, payloadWords_of_no_len rfl⟩, payloadWords_of_no_len rfl,
    payloadWords_of_no_len rfl, fun i => ?_⟩
  · have header := (step_encode (rest := presentAll ws ++ rest) hp hs).trans (exec_announces legal)
    obtain ⟨hf, hq, -⟩ := hs
    obtain ⟨t, run, left, ht⟩ := run_words (s := { s with
      toEngine := { s.toEngine with rxCnt := i.lenField }, pending := presentAll ws ++ rest }) hf hq rfl hlen
    have rx : t.rxCnt.toNat = i.payloadBytes - 4 * ws.length := left
    refine ⟨t, ?_, rx, ?_, ht⟩
    · rw [Nat.add_comm, runSteps_succ header, run]
    · rw [← BitVec.toNat_inj, rx, BitVec.ofNat_eq_ofNat, BitVec.toNat_zero]
      rw [Instr.payloadWords] at hlen ⊢
      omega
  · obtain ⟨hf, hq, hr⟩ := hs
    rw [step_header hp hf hq hr] at h
    rcases headerStep_cases w { s with pending := rest } with ⟨e, effect, executed⟩ | ⟨stopped, -⟩
    · rw [executed] at h
      cases h
      exact effect.announced hr expected
    · rw [stopped] at h; cases h
  · have := payloadWords_le i
    omega

/-! ### The padding state machine (R156) -/

theorem foldl_absorbPad_fill (x : HashCtx) (bs : List Byte) :
    (bs.foldl absorbPad x).fill.val = (x.fill.val + bs.length) % 64 := by
  have := x.fill.isLt
  induction bs generalizing x with
  | nil => simp only [List.foldl_nil, List.length_nil]; omega
  | cons b bs ih =>
    rw [List.foldl_cons, ih _ (absorbPad x b).fill.isLt, absorbPad, pushByte_fill, List.length_cons]
    omega

/-- In ZERO the machine absorbs a zero byte for each fill count on the way to 56. -/
theorem padMoves_zero (k : Nat) (x : HashCtx) (l : Length) (h : ∀ j, j < k → (x.fill.val + j) % 64 ≠ 56) :
    padMoves k { ctx := x, phase := .zero, total := l } =
      { ctx := (List.replicate k 0).foldl absorbPad x, phase := .zero, total := l } := by
  induction k generalizing x with
  | zero => rfl
  | succ k ih =>
    have below : x.fill.val ≠ 56 := by
      have := h 0 (Nat.succ_pos k)
      have := x.fill.isLt
      omega
    have move : padMove { ctx := x, phase := .zero, total := l } =
        { ctx := absorbPad x 0, phase := .zero, total := l } := if_pos below
    rw [padMoves, move, ih, List.replicate_succ, List.foldl_cons]
    intro j hj
    have := h (j + 1) (by omega)
    rw [absorbPad, pushByte_fill]
    omega

/-- In LENB the machine absorbs what is left of the eight bytes of the length. -/
theorem padMoves_lenb {k j : Nat} (h : j + k = 7) (x : HashCtx) (l : Length) :
    padMoves (k + 1) { ctx := x, phase := .lenb j, total := l } =
      { ctx := ((bytes64 l).drop j).foldl absorbPad x, phase := .done, total := l } := by
  induction k generalizing x j with
  | zero =>
    obtain rfl : j = 7 := h
    rfl
  | succ k ih =>
    have hj : j < (bytes64 l).length := by rw [bytes64_length]; omega
    have move : padMove { ctx := x, phase := .lenb j, total := l } =
        { ctx := absorbPad x (bytes64 l)[j], phase := .lenb (j + 1), total := l } := by
      simp only [padMove]
      rw [if_neg (by omega), List.getD_eq_getElem _ _ hj]
    rw [padMoves, move, ih (by omega), List.drop_eq_getElem_cons hj, List.foldl_cons]

theorem padMoves_done (n : Nat) (x : HashCtx) (l : Length) :
    padMoves n { ctx := x, phase := .done, total := l } = { ctx := x, phase := .done, total := l } := by
  induction n with
  | zero => rfl
  | succ n ih => exact ih

/-- Settles O41: one move in MARK, `padZeros` in ZERO, one to leave it, eight in LENB, and the rest in DONE. -/
theorem paddingMachineFinalizes : Obligations.PaddingMachineFinalizes := by
  intro x l n hn
  have hf := x.fill.isLt
  have mark : (absorbPad x 0x80).fill.val = (x.fill.val + 1) % 64 := pushByte_fill x _ _
  have zeros : padZeros x.fill ≤ 63 ∧ (x.fill.val + 1 + padZeros x.fill) % 64 = 56 ∧
      ∀ j, j < padZeros x.fill → ((x.fill.val + 1) % 64 + j) % 64 ≠ 56 := by
    rw [padZeros]
    exact ⟨by omega, by omega, fun j hj => by omega⟩
  obtain ⟨few, full, below⟩ := zeros
  have left : padMove
      { ctx := (List.replicate (padZeros x.fill) 0).foldl absorbPad (absorbPad x 0x80), phase := .zero,
        total := totalBits x } =
      { ctx := (List.replicate (padZeros x.fill) 0).foldl absorbPad (absorbPad x 0x80), phase := .lenb 0,
        total := totalBits x } := by
    refine if_neg (not_not.2 ?_)
    simp only
    rw [foldl_absorbPad_fill, mark, List.length_replicate]
    omega
  obtain ⟨r, rfl⟩ : ∃ r, n = 1 + (padZeros x.fill + (1 + (8 + r))) := ⟨n - (10 + padZeros x.fill), by omega⟩
  calc padMoves (1 + (padZeros x.fill + (1 + (8 + r)))) { ctx := x, phase := .mark, total := l }
    _ = padMoves (padZeros x.fill + (1 + (8 + r)))
          { ctx := absorbPad x 0x80, phase := .zero, total := totalBits x } := padMoves_add 1 _ _
    _ = padMoves (1 + (8 + r))
          { ctx := (List.replicate (padZeros x.fill) 0).foldl absorbPad (absorbPad x 0x80), phase := .zero,
            total := totalBits x } := by
      rw [padMoves_add, padMoves_zero _ _ _ (by rw [mark]; exact below)]
    _ = padMoves (8 + r)
          { ctx := (List.replicate (padZeros x.fill) 0).foldl absorbPad (absorbPad x 0x80), phase := .lenb 0,
            total := totalBits x } := by
      rw [← left]
      exact padMoves_add 1 _ _
    _ = { ctx := finalize x, phase := .done, total := totalBits x } := by
      rw [padMoves_add, padMoves_lenb (j := 0) rfl, List.drop_zero, padMoves_done, finalize, padding, List.foldl_cons,
        List.foldl_append]

end Sys2Proof.Machine
end

section
/-! PROOFS. Whole hashes and tags (41_hash_context.md R165, 42_hmac.md R181, R184, R187; 70_reset_and_hazards.md R247):
the key, what KDONE and FINAL leave behind, and the pseudo-instructions HASH and HMAC (30_encoding.md R113) from their
first word to the last word taken. -/

namespace Sys2Proof.Machine

/-! ### KEY (R181) -/

/-- Settles O6: the exceptions by the header laws, the net effect as that of one KEY in `run_keys`. -/
theorem keyPassesItsPayloadToTheKeyRegisters : Obligations.KeyPassesItsPayloadToTheKeyRegisters := by
  refine fun s => ⟨fun var rsv len h => ?_, fun len hm => ?_, fun len hm => ?_, fun ks rest hm hs hlen hp => ?_⟩
  · exact headerStep_reserved .key s (h.elim (fun hv => .inr (.inl ⟨rfl, hv⟩)) .inl)
  · have illegal : modeAllows s.mode (Instr.key len).opcode = false :=
      (modeAllows_false_iff _ .key).2 (.inr ⟨by decide, hm⟩)
    exact ⟨headerStep_badMode (.key len) illegal, exec_badMode illegal⟩
  · exact ⟨headerStep_encode (.key len) s, exec_key hm len⟩
  · have one : [ks].flatMap keyWords = keyWords ks := List.flatMap_singleton ..
    have run := run_keys (cs := [ks]) hm hs (by simpa using hlen) (by rw [one]; exact hp)
    rw [one, List.flatten_singleton] at run
    exact run

/-! ### The normalized key (R184) -/

/-- A key above 64 bytes is replaced by its digest and the zero bytes that fill the block up. -/
theorem keyBlockOf_long_toList (v : Variant) {key : List Byte} (h : 65 ≤ key.length) :
    (keyBlockOf v key).toList = messageDigestBytes v key ++ List.replicate (64 - 4 * digestWords v) 0 := by
  have digest : (messageDigestBytes v key).length = 4 * digestWords v := digestBytes_length _ v
  have fits : digestWords v ≤ 8 := by cases v <;> decide
  rw [keyBlockOf, if_neg (by omega), padBlock_toList (by omega), digest]

/-- Settles O44: `KEYCNT` by `foldl_keyByte`, and `K0` as `keyBlockOf` by `normalizedKey_foldl`. -/
theorem normalizedKeyByKeyLength : Obligations.NormalizedKeyByKeyLength := by
  intro v e key k0 hk
  rw [normalizedKey_foldl] at hk
  subst hk
  refine ⟨?_, fun empty => ?_, fun short => ?_, fun long _ => ?_⟩
  · rw [foldl_keyByte]
    simp only
    split <;> omega
  · obtain rfl := List.length_eq_zero_iff.1 empty
    rw [keyBlockOf, if_pos (by decide), ← writeList_zeroBlock, writeList_nil, zeroBlock]
  · rw [keyBlockOf, if_pos short, padBlock_toList short]
  · rw [keyBlockOf_long_toList v long]
    cases v <;> rfl

/-! ### What KDONE and FINAL leave behind (R247) -/

/-- FINAL or KDONE that answers a next state without `FAULT` was legal, in a state with a variant. -/
theorem legal_of_exec {i : Instr} {s t : State} (hi : i = .final ∨ i = .kdone) (h : exec i s = .next t)
    (hf : t.fault = false) : modeAllows s.mode i.opcode = true ∧ ∃ v, s.variant = some v := by
  have legal : modeAllows s.mode i.opcode = true := by
    by_contra illegal
    rw [exec_badMode (by simpa using illegal)] at h
    cases h
    cases hf
  cases hv : s.variant with
  | none => rw [exec_variantAbsent hi legal hv] at h; cases h
  | some v => exact ⟨legal, v, rfl⟩

/-- Settles O45: KDONE leaves two contexts whose buffers are empty, FINAL the reset engine but for the queue. -/
theorem noKeyResidueAfterKdoneAndFinal : Obligations.NoKeyResidueAfterKdoneAndFinal := by
  refine ⟨fun s t h hf => ?_, fun s t h hf => ?_⟩
  · obtain ⟨legal, v, hv⟩ := legal_of_exec (.inr rfl) h hf
    have keying : s.mode = .keying := by simpa [modeAllows_eq, Instr.opcode] using legal
    rw [exec_kdone keying hv, seedContexts_eq] at h
    cases h
    exact ⟨rfl, rfl, rfl, rfl⟩
  · obtain ⟨legal, v, hv⟩ := legal_of_exec (.inl rfl) h hf
    have live : s.mode = .hash ∨ s.mode = .hmac := by simpa [modeAllows_eq, Instr.opcode] using legal
    rw [exec_final live hv, finalEngine_eq] at h
    cases h
    have unfaulted : s.fault = false := hf
    simp only [consumeContext, loadQueue, unfaulted]
    rfl

/-! ### From the message to the words on OUT (R165, R187) -/

theorem runSteps_trans {s t : State} {r : Result} {m n : Nat} (h : runSteps m s = .next t) (h' : runSteps n t = r) :
    runSteps (m + n) s = r :=
  (runSteps_add m n h).trans h'

theorem variantOfCode_variantField (v : Variant) : variantOfCode (variantField v) = some v := by cases v <;> rfl

/-- The HashState whose leading words FINAL queues: the finalized `CTX[0]`, or the tag (R162, R185). -/
def resultState (v : Variant) (e : Engine) : HashState :=
  if e.mode = .hmac then tagState v e else (finalize e.ctx0).h

theorem resultState_hmac {e : Engine} (h : e.mode = .hmac) (v : Variant) : resultState v e = tagState v e := if_pos h

theorem resultState_hash {e : Engine} (h : e.mode = .hash) (v : Variant) : resultState v e = (finalize e.ctx0).h :=
  if_neg (by rw [h]; decide)

theorem finalEngine_eq_resultState (v : Variant) (e : Engine) :
    finalEngine v e = consumeContext (loadQueue v (resultState v e) e) := finalEngine_eq v e

/-- FINAL and the takings of its words: the result is on OUT, and the engine is in its reset state. -/
theorem run_final {s : State} {v : Variant} {rest : List Event} (inv : Inv s.toEngine)
    (hm : s.mode = .hash ∨ s.mode = .hmac) (hv : s.variant = some v) (hs : ready s.toEngine)
    (hp : s.pending = .inWord (encode .final) :: (takeAll (digestWords v) ++ rest)) :
    runSteps (1 + digestWords v) s = .next { Engine.reset with
      pending := rest, outStream := s.outStream ++ digestOf (resultState v s.toEngine) v } := by
  have ⟨hf, hq, hr⟩ := hs
  have final := (step_encode hp hs).trans
    (exec_final (s := { s with pending := takeAll (digestWords v) ++ rest }) hm hv)
  have queued := inv_finalEngine inv hf hq hr v
  rw [finalEngine_eq_resultState] at final queued
  have drained := run_takeAll (s := { s with
    toEngine := consumeContext (loadQueue v (resultState v s.toEngine) s.toEngine)
    pending := takeAll (digestWords v) ++ rest }) queued rfl hf (queueCount_val v) rfl
  rw [Nat.add_comm, runSteps_succ final, drained, ← queueWords_take v (resultState v s.toEngine) s.txq]
  rfl

/-- UPDATE commands, FINAL and the takings of its words, from a live hash or HMAC context. -/
theorem run_message {s : State} {v : Variant} {chunks : List (List Byte)} {rest : List Event} (inv : Inv s.toEngine)
    (hm : s.mode = .hash ∨ s.mode = .hmac) (hv : s.variant = some v) (hs : ready s.toEngine)
    (hlen : ∀ c ∈ chunks, c.length ≤ 65535)
    (hp : s.pending =
      presentAll (chunks.flatMap updateWords ++ [encode .final]) ++ (takeAll (digestWords v) ++ rest)) :
    runSteps ((chunks.flatMap updateWords).length + (1 + digestWords v)) s = .next { Engine.reset with
      pending := rest
      outStream := s.outStream ++
        digestOf (resultState v { s.toEngine with ctx0 := absorbAll s.ctx0 chunks.flatten }) v } := by
  rw [presentAll_append, List.append_assoc] at hp
  have updates := run_updates hm hs hlen hp
  exact runSteps_trans updates (run_final (runSteps_inv inv updates) hm hv hs rfl)

/-- Settles O9: HINIT starts the empty message, and `run_message` delivers the finalized context of the whole one. -/
theorem hashDeliversTheDigestOfItsMessage : Obligations.HashDeliversTheDigestOfItsMessage := by
  intro s v chunks rest inv hs hlen _ hp
  have start := (step_encode (rest := presentAll (chunks.flatMap updateWords ++ [encode .final]) ++
    (takeAll (digestWords v) ++ rest)) hp hs).trans (exec_hinit (variantOfCode_variantField v) _)
  have message := run_message (everyStepKeepsTheStateInvariants _ _ inv start) (.inl rfl) rfl hs hlen rfl
  have count : (hashWords v chunks).length + digestWords v =
      (chunks.flatMap updateWords).length + (1 + digestWords v) + 1 := by
    rw [hashWords, List.length_cons, List.length_append, List.length_singleton]
    omega
  have digest : digestOf (resultState v
      { startContext v .hash s.toEngine with ctx0 := absorbAll (ctxInit v) chunks.flatten }) v =
      messageDigest v chunks.flatten :=
    congrArg (digestOf · v) ((resultState_hash rfl v).trans (finalize_absorbAll v _))
  rw [count, runSteps_succ start, message, ← digest]
  rfl

/-! ### HMAC (R187) -/

/-- KINIT, KEY commands and KDONE seed both contexts with the key received (R180, R181, R183). -/
theorem run_keyEntry {s : State} {v : Variant} {keyChunks : List (List Byte)} {rest : List Event}
    (hs : ready s.toEngine) (hlen : ∀ c ∈ keyChunks, c.length ≤ 65535)
    (hp : s.pending =
      .inWord (encode (.kinit (variantField v))) ::
        (presentAll (keyChunks.flatMap keyWords) ++ .inWord (encode .kdone) :: rest)) :
    runSteps (1 + ((keyChunks.flatMap keyWords).length + 1)) s = .next { s with
      toEngine := seedContexts v (keyChunks.flatten.foldl keyByte (startContext v .keying s.toEngine))
      pending := rest } := by
  have start := (step_encode hp hs).trans (exec_kinit (variantOfCode_variantField v) _)
  have keys := run_keys (s := { s with
    toEngine := startContext v .keying s.toEngine
    pending := presentAll (keyChunks.flatMap keyWords) ++ .inWord (encode .kdone) :: rest }) rfl hs hlen rfl
  have received := foldl_keyByte v s.toEngine keyChunks.flatten
  generalize keyChunks.flatten.foldl keyByte (startContext v .keying s.toEngine) = e at keys received ⊢
  have hm : e.mode = .keying := by rw [received]; rfl
  have hv : e.variant = some v := by rw [received]; rfl
  have he : ready e := by rw [received]; exact hs
  have kdone := (step_encode (s := { s with
    toEngine := e, pending := .inWord (encode .kdone) :: rest }) rfl he).trans (exec_kdone hm hv)
  rw [Nat.add_comm, runSteps_succ start, runSteps_add _ _ keys, runSteps_succ kdone]
  rfl

/-- The tag where the contexts hold the padded key and the message (R185 steps 1 to 3, R187). -/
theorem tagState_eq {v : Variant} {e : Engine} {k0 : Block} {m : List Byte}
    (hinner : e.ctx0 = absorbAll (ctxInit v) (xorPad k0 ipadByte ++ m))
    (houter : e.ctx1 = absorbAll (ctxInit v) (xorPad k0 opadByte)) :
    tagState v e = messageState v (xorPad k0 opadByte ++ messageDigestBytes v (xorPad k0 ipadByte ++ m)) := by
  rw [tagState, hinner, houter, finalize_absorbAll, ← absorbAll_append, finalize_absorbAll, messageDigestBytes]

/-- Settles O10: `run_keyEntry` seeds the contexts, and `run_message` delivers the words of `tagState_eq`. -/
theorem hmacDeliversTheTagOfItsMessage : Obligations.HmacDeliversTheTagOfItsMessage := by
  intro s v keyChunks chunks rest inv hs hkeys hlen _ _ hp
  have words : presentAll (hmacWords v keyChunks chunks) ++ (takeAll (digestWords v) ++ rest) =
      .inWord (encode (.kinit (variantField v))) :: (presentAll (keyChunks.flatMap keyWords) ++
        .inWord (encode .kdone) :: (presentAll (chunks.flatMap updateWords ++ [encode .final]) ++
          (takeAll (digestWords v) ++ rest))) := by
    simp [hmacWords, presentAll]
  have count : (hmacWords v keyChunks chunks).length + digestWords v =
      1 + ((keyChunks.flatMap keyWords).length + 1) +
        ((chunks.flatMap updateWords).length + (1 + digestWords v)) := by
    simp only [hmacWords, List.length_cons, List.length_append, List.length_nil]
    omega
  have seeded := run_keyEntry hs hkeys (hp.trans words)
  have seededInv := runSteps_inv inv seeded
  have received := foldl_keyByte v s.toEngine keyChunks.flatten
  have normalized := normalizedKey_foldl v s.toEngine keyChunks.flatten
  generalize keyChunks.flatten.foldl keyByte (startContext v .keying s.toEngine) = e
    at seeded seededInv received normalized
  have hv : e.variant = some v := by rw [received]; rfl
  have he : ready e := by rw [received]; exact hs
  have message := run_message (s := { s with toEngine := seedContexts v e, pending := _ }) seededInv (.inr rfl) hv he
    hlen rfl
  have tag : digestOf (resultState v
      { seedContexts v e with ctx0 := absorbAll (seedContexts v e).ctx0 chunks.flatten }) v =
      hmacTag v keyChunks.flatten chunks.flatten := by
    refine congrArg (digestOf · v) ((resultState_hmac rfl v).trans (tagState_eq ?_ ?_))
    · rw [seedContexts_ctx0, normalized, absorbAll_append]
    · rw [← normalized]
      exact seedContexts_ctx1 v e
  rw [count, runSteps_trans seeded message, ← tag]

end Sys2Proof.Machine
end
